-- ==== Sys2Proof/Word.lean ====
section
/-! DEFINITION. The word type of BNCORE (00_scope.md R8, R11): every register word, bus word and command word is a
32-bit unsigned unit, bits numbered from 0 at the least-significant bit. -/

namespace Sys2Proof

/-- R8: "a 32-bit unsigned unit of a big integer's magnitude"; also the bus word and the command word. -/
abbrev Word := BitVec 32

/-- One byte lane of a bus word (20_memory.md R56). -/
abbrev Byte := BitVec 8

/-- `2^32`, the radix of the word lists (R12). -/
abbrev radix : Nat := 2 ^ 32

end Sys2Proof
end

