-- ==== Sys2Proof/Syntax.lean ====
section
/-! DEFINITION. The commands of BNCORE-CMD version 1 (30_encoding.md R72 to R74), one constructor per row of
spec/opcode_table.json, and the pseudo-instructions of R83. -/

namespace Sys2Proof

/-- R73: a register field is "a plain 4-bit unsigned index `0..15` naming `V0..V15`"; any combination is legal. -/
abbrev RegIdx := Fin 16

/-- The eight commands of R74.  `DIVQ` and `DIVR` are the two values of the mode bit M (R71). -/
inductive Instr where
  /-- R90, format N. -/
  | nop
  /-- R92, format R3: `vd <- va + vb`. -/
  | add (rd ra rb : RegIdx)
  /-- R94, format R3: `vd <- va - vb`. -/
  | sub (rd ra rb : RegIdx)
  /-- R96, format R3: `vd <- va * vb`. -/
  | mul (rd ra rb : RegIdx)
  /-- R114, format D with M = 0: `vd <- va div vb`. -/
  | divq (rd ra rb : RegIdx)
  /-- R115, format D with M = 1: `vd <- va mod vb`. -/
  | divr (rd ra rb : RegIdx)
  /-- R122, format R4: `vd <- va ^ vb mod vc`. -/
  | powmod (rd ra rb rc : RegIdx)
  /-- R98, format C: compare `va` with `vb`. -/
  | cmp (ra rb : RegIdx)
  deriving DecidableEq, Repr

/-- The fields OP, RD, RA, RB, RC and M of a command word (R71); RSV is 0 in every legal word. -/
structure Fields where
  op : BitVec 4
  rd : RegIdx
  ra : RegIdx
  rb : RegIdx
  rc : RegIdx
  m  : Bool
  deriving DecidableEq, Repr

/-- R71, R72, R74: the fields of each command, 0 where its format does not use one. -/
def Instr.fields : Instr → Fields
  | .nop               => ⟨0x0, 0, 0, 0, 0, false⟩
  | .add rd ra rb      => ⟨0x1, rd, ra, rb, 0, false⟩
  | .sub rd ra rb      => ⟨0x2, rd, ra, rb, 0, false⟩
  | .mul rd ra rb      => ⟨0x3, rd, ra, rb, 0, false⟩
  | .divq rd ra rb     => ⟨0x4, rd, ra, rb, 0, false⟩
  | .divr rd ra rb     => ⟨0x4, rd, ra, rb, 0, true⟩
  | .powmod rd ra rb rc => ⟨0x5, rd, ra, rb, rc, false⟩
  | .cmp ra rb         => ⟨0x6, 0, ra, rb, 0, false⟩

/-- The V register a command writes when it succeeds: RD, and none for NOP and CMP (R24, R90, R98). -/
def Instr.dest : Instr → Option RegIdx
  | .nop => none
  | .add rd _ _ => some rd
  | .sub rd _ _ => some rd
  | .mul rd _ _ => some rd
  | .divq rd _ _ => some rd
  | .divr rd _ _ => some rd
  | .powmod rd _ _ _ => some rd
  | .cmp _ _ => none

/-- The pseudo-instructions of R83; their expansion is `Pseudo.expand` (Machine/Assembler.lean). -/
inductive Pseudo where
  | div (vd va vb : RegIdx)
  | mod (vd va vb : RegIdx)
  | sqr (vd va : RegIdx)
  | modmul (vd va vb vm : RegIdx)
  | modsqr (vd va vm : RegIdx)
  deriving DecidableEq, Repr

end Sys2Proof
end

