-- ==== Sys2Proof/Decode.lean ====
section
/-! DEFINITION. Decoding a command word by the rows of 30_encoding.md R74 as R80 says, total on every word and
rejecting by name; then the encoder from the same field layout (R71, R82), and the little-endian byte view of a
command word (20_memory.md R56). -/

namespace Sys2Proof

/-- The mnemonics of R74. -/
inductive Mnemonic where
  | nop | add | sub | mul | divq | divr | powmod | cmp
  deriving DecidableEq, Repr

/-- One row of R74: "A word `w` selects a row iff `(w & mask) = match`." -/
structure Row where
  mnemonic : Mnemonic
  pattern  : Word
  mask     : Word
  deriving DecidableEq, Repr

/-- R74, in the order of the table. -/
def opcodeTable : List Row :=
  [ ⟨.nop,    0x00000000, 0xFFFFFFFF⟩,
    ⟨.add,    0x00000001, 0xFFFF000F⟩,
    ⟨.sub,    0x00000002, 0xFFFF000F⟩,
    ⟨.mul,    0x00000003, 0xFFFF000F⟩,
    ⟨.divq,   0x00000004, 0xFFFF000F⟩,
    ⟨.divr,   0x00100004, 0xFFFF000F⟩,
    ⟨.powmod, 0x00000005, 0xFFF0000F⟩,
    ⟨.cmp,    0x00000006, 0xFFFF00FF⟩ ]

/-- The row test of R74. -/
def Row.selects (r : Row) (w : Word) : Bool := w &&& r.mask == r.pattern

/-- R71: `OP`, bits 3:0. -/
def opField (w : Word) : BitVec 4 := w.extractLsb' 0 4
/-- R71: `RD`, bits 7:4. -/
def rdField (w : Word) : RegIdx := (w.extractLsb' 4 4).toFin
/-- R71: `RA`, bits 11:8. -/
def raField (w : Word) : RegIdx := (w.extractLsb' 8 4).toFin
/-- R71: `RB`, bits 15:12. -/
def rbField (w : Word) : RegIdx := (w.extractLsb' 12 4).toFin
/-- R71: `RC`, bits 19:16. -/
def rcField (w : Word) : RegIdx := (w.extractLsb' 16 4).toFin
/-- R71: `RSV`, bits 31:21. -/
def rsvField (w : Word) : BitVec 11 := w.extractLsb' 21 11

/-- R80: "return row.mnemonic with RD = w[7:4], RA = w[11:8], RB = w[15:12], RC = w[19:16]". -/
def Mnemonic.build (m : Mnemonic) (w : Word) : Instr :=
  match m with
  | .nop    => .nop
  | .add    => .add (rdField w) (raField w) (rbField w)
  | .sub    => .sub (rdField w) (raField w) (rbField w)
  | .mul    => .mul (rdField w) (raField w) (rbField w)
  | .divq   => .divq (rdField w) (raField w) (rbField w)
  | .divr   => .divr (rdField w) (raField w) (rbField w)
  | .powmod => .powmod (rdField w) (raField w) (rbField w) (rcField w)
  | .cmp    => .cmp (raField w) (rbField w)

/-- Why a word is ILLEGAL: the three bullets of R80, and a byte sequence too short to hold a word. -/
inductive DecodeError where
  /-- "any word with `OP` in 0x7..0xF". -/
  | reservedOpcode (op : BitVec 4)
  /-- "any word with a nonzero RSV bit (bits [31:21])". -/
  | reservedBits
  /-- "any word in which a field its format requires to be 0 (rule R72) is nonzero". -/
  | unusedFieldNonzero
  /-- Fewer than four bytes: no whole bus word (R54, R70). -/
  | truncated
  deriving DecidableEq, Repr

/-- The name under which R80's ILLEGAL is reported for a word that selects no row (DESIGN CHOICE, log 20). -/
def illegalReason (w : Word) : DecodeError :=
  if (7 : BitVec 4) ≤ opField w then .reservedOpcode (opField w)
  else if rsvField w ≠ 0 then .reservedBits
  else .unusedFieldNonzero

/-- R80: "for each row of rule R74 : if (w & row.mask) = row.match then return row.mnemonic …; return ILLEGAL". -/
def decodeWord (w : Word) : Except DecodeError Instr :=
  match opcodeTable.find? (fun r => r.selects w) with
  | some r => .ok (r.mnemonic.build w)
  | none => .error (illegalReason w)

/-- R56: byte `j` of the bus word carries bits `[8j+7 : 8j]`. -/
def byteLane (w : Word) (j : Nat) : Byte := w.extractLsb' (8 * j) 8

/-- The four byte lanes of a bus word, lane 0 first (R56). -/
def wordToBytes (w : Word) : List Byte := [byteLane w 0, byteLane w 1, byteLane w 2, byteLane w 3]

/-- The bus word carried by four byte lanes, lane 0 first (R56). -/
def wordOfLanes (b0 b1 b2 b3 : Byte) : Word := b3 ++ b2 ++ b1 ++ b0

/-- Decode the first command word of a byte sequence, and give the bytes after it. -/
def decodeBytes : List Byte → Except DecodeError (Instr × List Byte)
  | b0 :: b1 :: b2 :: b3 :: rest =>
    match decodeWord (wordOfLanes b0 b1 b2 b3) with
    | .ok i => .ok (i, rest)
    | .error e => .error e
  | _ => .error .truncated

/-- R71's pattern, "bit 31 first: `00000000000 m cccc bbbb aaaa dddd oooo`". -/
def Fields.pack (f : Fields) : Word :=
  (0 : BitVec 11) ++ BitVec.ofBool f.m ++ (BitVec.ofFin f.rc : BitVec 4) ++ (BitVec.ofFin f.rb : BitVec 4)
    ++ (BitVec.ofFin f.ra : BitVec 4) ++ (BitVec.ofFin f.rd : BitVec 4) ++ f.op

/-- The command word of a command (R82). -/
def encode (i : Instr) : Word := i.fields.pack

/-- The bytes of a command word on the bus, lane 0 first (R56). -/
def encodeBytes (i : Instr) : List Byte := wordToBytes (encode i)

/-- The command word a number `w` of `nbits` bits stands for, bit `k` of the number being bit `k` of the word (R11). -/
def tableWord (nbits w : Nat) : Word := BitVec.ofNat 32 (w % 2 ^ nbits)

/-- What the decoder reads from a word numbered as spec/opcode_table.json numbers it, laid out in byte lanes. -/
def decodeTableWord (nbits w : Nat) : Option Instr :=
  match decodeBytes (wordToBytes (tableWord nbits w)) with
  | .ok (i, _) => some i
  | .error _ => none

end Sys2Proof
end

