-- ==== Sys2Proof/Machine/Num.lean ====
section
/-! DEFINITION. Naturals and word lists, least-significant word first (00_scope.md R12 to R14). -/

namespace Sys2Proof.Machine

/-- R12: `val(w) = Σ_{i<k} wi · 2^(32·i)`. -/
def val : List Word → Nat
  | [] => 0
  | w :: ws => w.toNat + radix * val ws

/-- R12: `word_i(v) = (v >> 32·i) mod 2^32`. -/
def wordAt (v i : Nat) : Word := BitVec.ofNat 32 (v >>> (32 * i))

/-- R15: the words `word_0(v) .. word_(n-1)(v)`. -/
def wordsOf : Nat → Nat → List Word
  | 0, _ => []
  | n + 1, v => BitVec.ofNat 32 v :: wordsOf n (v / radix)

/-- R14: 0 for 0 and otherwise the least `k` with `v < 2^k` (the bit position counted from 1, 90_conflicts.md C3). -/
def bitLen (v : Nat) : Nat := if v = 0 then 0 else Nat.log2 v + 1

/-- R13 by R14's identity `len(v) = (bitlen(v) + 31) div 32`. -/
def wordLen (v : Nat) : Nat := (bitLen v + 31) / 32

/-- R13: the normalized word list `mag(v)`, empty for 0. -/
def mag (v : Nat) : List Word := wordsOf (wordLen v) v

/-- "strip the most-significant zero words" (40_arith_kernels.md R95): the last entries of the list. -/
def strip : List Word → List Word
  | [] => []
  | w :: ws =>
    match strip ws with
    | [] => if w = 0 then [] else [w]
    | h :: t => w :: h :: t

end Sys2Proof.Machine
end

