-- ==== Sys2Proof/Machine/Flags.lean ====
section
/-! DEFINITION. The three flag computations of BNCORE (10_state.md R28 to R30). -/

namespace Sys2Proof.Machine

/-- R28: `Z <- (result = 0)`. -/
def zeroFlag (v : Nat) : Bool := decide (v = 0)

/-- R29, for ADD: `CY <- 1` iff `len(result) > max(len(a), len(b))`. -/
def carryFlag (a b : Nat) : Bool := decide (wordLen (a + b) > max (wordLen a) (wordLen b))

/-- R30: `0b00` if `a = b`, `0b01` if `a > b` and `0b10` if `a < b`. -/
def cmpCode (a b : Nat) : BitVec 2 := if a = b then 0b00 else if a > b then 0b01 else 0b10

end Sys2Proof.Machine
end

