-- ==== Sys2Proof/Config.lean ====
section
/-! DEFINITION. The implementation parameters of BNCORE (00_scope.md R9, 93_implementation_defined.md §2).
They are the fields of one record that `State` carries and no step changes, so every statement about all
states is a statement about every configuration.  There is no free value: the spec leaves no result open. -/

namespace Sys2Proof

/-- R9: the parameters a model takes.  `LATENCY` is not here: R166 represents it by the interleaving alone
(the `events` of `State`). -/
structure Config where
  /-- `MAXW`, the capacity of each V register in 32-bit words. -/
  maxw : Nat
  /-- `BASE`, the platform byte address of the 4096-byte aperture (R50). -/
  base : Nat
  /-- `IRQ_LINE`, the platform's routing of `irq` (R140). -/
  irqLine : Nat
  deriving DecidableEq, Repr

/-- `NREG`, fixed at 16 (R9). -/
def Config.nreg : Nat := 16

/-- R50: the aperture's size in bytes. -/
def Config.apertureBytes : Nat := 4096

/-- R9's default `MAXW = 128`.  R9 gives `BASE` and `IRQ_LINE` no default: both are zero here (DESIGN CHOICE, log 2). -/
def Config.default : Config := { maxw := 128, base := 0, irqLine := 0 }

/-- The configurations that are BNCORE: `1 <= MAXW <= 512` (R9, U15) and `BASE` 4096-byte aligned (R50). -/
def Config.valid (c : Config) : Bool :=
  decide (1 ≤ c.maxw ∧ c.maxw ≤ 512 ∧ c.base % Config.apertureBytes = 0)

end Sys2Proof
end

