-- ==== Sys2Proof/Machine/State.lean ====
section
/-! DEFINITION. The state vector of BNCORE (10_state.md R46), as plain data, with the inputs that drive it and the
state after reset (70_reset_and_hazards.md R150). -/

namespace Sys2Proof.Machine

/-- The fields of STATUS (R27).  Bits 3 and 31:14 are reserved, read 0 and ignore writes, so they hold nothing. -/
structure Status where
  /-- bit 0: "1 from the acceptance of a command until its completion". -/
  busy : Bool
  /-- bit 1, RW1C: set by every completion, cleared by every acceptance. -/
  done : Bool
  /-- bit 2: "1 iff the last completed command ended with ECODE ≠ 0". -/
  err : Bool
  /-- bits 7:4: the error code of the last completed command (R130). -/
  ecode : BitVec 4
  /-- bit 8, R28. -/
  z : Bool
  /-- bit 9, R29. -/
  cy : Bool
  /-- bits 11:10, R30. -/
  cmp : BitVec 2
  /-- bit 12, RW1C, sticky: a CMD write was dropped (R39). -/
  cmdlost : Bool
  /-- bit 13, RW1C, sticky: a WIN or VCLR write was dropped (R39). -/
  winlost : Bool
  deriving DecidableEq, Repr

/-- The operand values of a command, naturals as `V[i]` reads them (R15, R38). -/
structure Snapshot where
  a : Nat
  b : Nat
  c : Nat
  deriving DecidableEq, Repr

/-- R43: "the pending command together with its operand snapshot". -/
structure Pending where
  instr : Instr
  ops : Snapshot
  deriving DecidableEq, Repr

/-- The two bus operations of the host (20_memory.md R57, R58). -/
inductive BusOp where
  | read
  | write (v : Word)
  deriving DecidableEq, Repr

/-- One host bus access: an operation at a platform byte address, with a width in bytes (R54); addresses are
naturals (DESIGN CHOICE, log 16). -/
structure Access where
  op : BusOp
  addr : Nat
  width : Nat
  deriving DecidableEq, Repr

/-- The three kinds of step (R20): a host access, the engine's turn, a platform reset.  "The steps interleave in any
order": the order is the list `State.events`, and a statement about all states is about every order. -/
inductive Event where
  | host (a : Access)
  | engine
  | reset
  deriving DecidableEq, Repr

/-- The machine.  R46 lists the BNCORE state; `cfg`, `events` and `reply` are the model's own (log 1, log 3, log 4). -/
structure State where
  /-- The parameters (R9); constant along every run. -/
  cfg : Config
  /-- `W[0..15][0..MAXW-1]` (R21, R22), word 0 of each register first. -/
  v : Vector (List Word) 16
  /-- CMDREG, the last accepted command word (R33). -/
  cmdreg : Word
  /-- STATUS (R27). -/
  status : Status
  /-- CTRL.IE (R42). -/
  ie : Bool
  /-- SEL.SELIDX (R34). -/
  sel : RegIdx
  /-- PEND (R43). -/
  pend : Option Pending
  /-- The steps to come, next first (R20, R61). -/
  events : List Event
  /-- The data the last host access returned to the host: `some` after a read, `none` after a write (R57). -/
  reply : Option Word
  deriving DecidableEq, Repr

/-- Why a step of the machine can stop.  Only a host access can (`hostStep`); no command does. -/
inductive Fault where
  /-- R54: a width other than 4 or an offset that is no multiple of 4 "end[s] with a bus error response"; "In a model it
  is a fault of the host step".  Raised by `hostStep`; safe (log 5). -/
  | busError (a : Access)
  /-- R50: offsets 0x000 to 0xFFF are the whole address space; an access elsewhere is not BNCORE's.  Raised by
  `hostStep`; safe (log 6). -/
  | outsideAperture (a : Access)
  deriving DecidableEq, Repr

/-- Why the model declines to step. -/
inductive Refusal where
  /-- An arm of `exec` without a meaning.  No arm raises it; safe. -/
  | notModelled (mnemonic : String)
  /-- U15 (93_implementation_defined.md): MAXW outside 1..512 is "not a BNCORE configuration", treatment `refuse`; and
  R50: `BASE` is 4096-byte aligned (DEDUCED, log 9).  Raised by `step`; safe. -/
  | badConfiguration (c : Config)
  deriving DecidableEq, Repr

/-- The outcome type of every meaning. -/
abbrev Outcome := Host.Outcome State Fault Refusal

/-- STATUS after reset (R150): 0x0000_0000. -/
def Status.reset : Status :=
  { busy := false, done := false, err := false, ecode := 0, z := false, cy := false, cmp := 0,
    cmdlost := false, winlost := false }

/-- R150 for a given configuration: "every V register has value 0", CMDREG is the NOP word, PEND is none. -/
def State.resetWith (c : Config) : State :=
  { cfg := c
    v := Vector.replicate 16 (List.replicate c.maxw 0)
    cmdreg := 0
    status := Status.reset
    ie := false
    sel := 0
    pend := none
    events := []
    reply := none }

/-- The machine right after reset, with the default parameters (R9, R150). -/
def State.reset : State := State.resetWith Config.default

end Sys2Proof.Machine
end

