-- ==== Sys2Proof/Machine/Ops.lean ====
section
/-! DEFINITION. The operations over the state that the meanings share: reading and writing V registers, the STATUS
word, the interrupt output, and the completion of a command with its error entry (60_exceptions.md R135). -/

namespace Sys2Proof.Machine

/-! ### V registers -/

/-- The words `W[r][0..MAXW-1]` (R22). -/
def State.words (s : State) (r : RegIdx) : List Word := s.v[r.val]

/-- `V[r] = val(W[r])` (R15, R22). -/
def State.value (s : State) (r : RegIdx) : Nat := val (s.words r)

/-- Replace the words of `V[r]`. -/
def State.setWords (s : State) (r : RegIdx) (ws : List Word) : State := { s with v := s.v.set r.val ws }

/-- `V[r] <- x` (R15): all `MAXW` words are written, so the words above `len(x)` become zero (R24). -/
def State.setValue (s : State) (r : RegIdx) (x : Nat) : State := s.setWords r (wordsOf s.cfg.maxw x)

/-- `W[r][k]`, for `k < MAXW` (R36). -/
def State.word (s : State) (r : RegIdx) (k : Nat) : Word := (s.words r).getD k 0

/-- `W[r][k] <- w`, for `k < MAXW` (R36). -/
def State.setWord (s : State) (r : RegIdx) (k : Nat) (w : Word) : State := s.setWords r ((s.words r).set k w)

/-- R37: "sets every word of `V[SELIDX]` to 0". -/
def State.clearReg (s : State) (r : RegIdx) : State := s.setWords r (List.replicate s.cfg.maxw 0)

/-! ### STATUS and the interrupt -/

/-- The 32-bit word a read of STATUS returns (R27). -/
def Status.toWord (t : Status) : Word :=
  (0 : BitVec 18) ++ BitVec.ofBool t.winlost ++ BitVec.ofBool t.cmdlost ++ t.cmp ++ BitVec.ofBool t.cy
    ++ BitVec.ofBool t.z ++ t.ecode ++ (0 : BitVec 1) ++ BitVec.ofBool t.err ++ BitVec.ofBool t.done
    ++ BitVec.ofBool t.busy

/-- R27: "A write to STATUS clears each RW1C bit whose written bit is 1, and changes nothing else."  A write of 1 to
DONE is the acknowledgement of R142, the nearest thing BNCORE has to a return from an exception. -/
def Status.clearWritten (t : Status) (w : Word) : Status :=
  { t with
    done := t.done && !w.getLsbD 1
    cmdlost := t.cmdlost && !w.getLsbD 12
    winlost := t.winlost && !w.getLsbD 13 }

/-- R140: `irq = CTRL.IE ∧ S.DONE`, evaluated continuously on the state. -/
def State.irq (s : State) : Bool := s.ie && s.status.done

/-- R140: the platform line `irq` raises, by the routing parameter `IRQ_LINE`. -/
def State.raisedLine (s : State) : Option Nat := if s.irq then some s.cfg.irqLine else none

/-! ### Completion -/

/-- The error causes of R130. -/
inductive CmdError where
  /-- R131. -/
  | illegalCmd
  /-- R132. -/
  | divZero
  /-- R133. -/
  | subUnderflow
  /-- R134. -/
  | overflow
  deriving DecidableEq, Repr

/-- The codes of R130. -/
def CmdError.code : CmdError → BitVec 4
  | .illegalCmd => 1
  | .divZero => 2
  | .subUnderflow => 3
  | .overflow => 4

/-- The result of a command's rule (R40): a value for a destination with its carry flag, a comparison, or an error. -/
inductive CmdResult where
  | wrote (rd : RegIdx) (x : Nat) (cy : Bool)
  | compared (code : BitVec 2)
  | failed (e : CmdError)
  deriving DecidableEq, Repr

/-- R91: an exact result that does not fit in `MAXW` words is OVERFLOW, and nothing wraps. -/
def finish (maxw : Nat) (rd : RegIdx) (x : Nat) (cy : Bool) : CmdResult :=
  if x ≥ 2 ^ (32 * maxw) then .failed .overflow else .wrote rd x cy

/-- The writes every completion makes, with or without error (R40, R139): `BUSY <- 0 ; DONE <- 1 ; PEND <- none`, and
ERR and ECODE. -/
def State.close (s : State) (err : Bool) (ecode : BitVec 4) : State :=
  { s with
    status := { s.status with busy := false, done := true, err := err, ecode := ecode }
    pend := none }

/-- R135, `raise CmdError(code)`: the one way a command ends with an error.  It writes ECODE, ERR, DONE and BUSY, and no
V register and none of Z, CY and CMP; it saves no context and jumps nowhere (R139). -/
def State.raise (s : State) (e : CmdError) : State := s.close true e.code

/-- R40: the completion of a command with its result, in one step. -/
def State.complete (s : State) : CmdResult → State
  | .wrote rd x cy =>
    let t := (s.setValue rd x).close false 0
    { t with status := { t.status with z := zeroFlag x, cy := cy } }
  | .compared code =>
    let t := s.close false 0
    { t with status := { t.status with cmp := code } }
  | .failed e => s.raise e

end Sys2Proof.Machine
end

