-- ==== Sys2Proof/Machine/Operands.lean ====
section
/-! DEFINITION. The one operand form of BNCORE: a command's operands are the values of the V registers its fields RA,
RB and RC name, captured together at acceptance (10_state.md R38, 30_encoding.md R73). -/

namespace Sys2Proof.Machine

/-- R38: the snapshot `(V[RA], V[RB], V[RC])`; a field the format does not use is 0 and names V0
(DEDUCED, log 12). -/
def State.capture (s : State) (i : Instr) : Snapshot :=
  { a := s.value i.fields.ra, b := s.value i.fields.rb, c := s.value i.fields.rc }

/-- The operands a command is evaluated on (R40): the snapshot of the pending command; with no command pending, the
registers as they stand, which is what an acceptance in this state would capture (log 7). -/
def State.operands (s : State) (i : Instr) : Snapshot :=
  match s.pend with
  | some p => p.ops
  | none => s.capture i

end Sys2Proof.Machine
end

