-- ==== Sys2Proof/Machine/Arith.lean ====
section
/-! DEFINITION. The completions of NOP, ADD, SUB, MUL and CMP (40_arith_kernels.md). -/

namespace Sys2Proof.Machine

/-- R90: `S.DONE <- 1`, `S.ERR <- 0`, `S.ECODE <- 0`; "BUSY is never set, and there is no engine step"
(log 19). -/
def execNop (s : State) : Outcome :=
  .next { s with status := { s.status with done := true, err := false, ecode := 0 } }

/-- R92: the exact sum, with CY iff it needed one word more than the longer operand. -/
def execAdd (rd ra rb : RegIdx) (s : State) : Outcome :=
  let o := s.operands (.add rd ra rb)
  .next (s.complete (finish s.cfg.maxw rd (o.a + o.b) (carryFlag o.a o.b)))

/-- R94: the exact difference, or SUB_UNDERFLOW when `a < b`. -/
def execSub (rd ra rb : RegIdx) (s : State) : Outcome :=
  let o := s.operands (.sub rd ra rb)
  .next (s.complete (if o.a < o.b then .failed .subUnderflow else finish s.cfg.maxw rd (o.a - o.b) false))

/-- R96: the exact product. -/
def execMul (rd ra rb : RegIdx) (s : State) : Outcome :=
  let o := s.operands (.mul rd ra rb)
  .next (s.complete (finish s.cfg.maxw rd (o.a * o.b) false))

/-- R98: the comparison code in STATUS.CMP, and no destination. -/
def execCmp (ra rb : RegIdx) (s : State) : Outcome :=
  let o := s.operands (.cmp ra rb)
  .next (s.complete (.compared (cmpCode o.a o.b)))

end Sys2Proof.Machine
end

