-- ==== Sys2Proof/Machine/Division.lean ====
section
/-! DEFINITION. The completions of DIVQ and DIVR (41_division.md R114, R115).  The engine that computes the two values
word by word is in Machine/Divider.lean. -/

namespace Sys2Proof.Machine

/-- R114: the quotient, or DIV_ZERO when the divisor's value is 0 (R117). -/
def execDivq (rd ra rb : RegIdx) (s : State) : Outcome :=
  let o := s.operands (.divq rd ra rb)
  .next (s.complete (if o.b = 0 then .failed .divZero else finish s.cfg.maxw rd (o.a / o.b) false))

/-- R115: the remainder, or DIV_ZERO when the divisor's value is 0 (R117). -/
def execDivr (rd ra rb : RegIdx) (s : State) : Outcome :=
  let o := s.operands (.divr rd ra rb)
  .next (s.complete (if o.b = 0 then .failed .divZero else finish s.cfg.maxw rd (o.a % o.b) false))

end Sys2Proof.Machine
end

