-- ==== Sys2Proof/Machine/ModExp.lean ====
section
/-! DEFINITION. The exponentiation datapath (42_modexp.md R120) and the completion of POWMOD (R122). -/

namespace Sys2Proof.Machine

/-- R120: the bits of one exponent word, "from least-significant to most-significant". -/
def wordBits (w : Word) : List Bool := (List.range 32).map w.getLsbD

/-- R120: the exponent's bits in the order of the scan, all 32 of every word of `mag(e)` (R121 leaves the count open;
it changes no value). -/
def expBits (e : Nat) : List Bool := (mag e).flatMap wordBits

/-- R120: one pass of the loop per bit: `if the bit is set, result = result * base % modulus`, and "unconditionally
`base = base * base % modulus`". -/
def squareMultiply (m : Nat) : List Bool → Nat → Nat → Nat
  | [], result, _ => result
  | bit :: bits, result, bacc =>
    squareMultiply m bits (if bit then result * bacc % m else result) (bacc * bacc % m)

/-- R120: `result` initially 1, the base accumulator initially `a`. -/
def powMod (a e m : Nat) : Nat := squareMultiply m (expBits e) 1 a

/-- R122: 1 when `e = 0` whatever `m` is; DIV_ZERO when `e ≠ 0` and `m = 0`; otherwise the value of the datapath, which
is `(a ^ e) mod m` (`Obligations.PowModDatapathComputesPower`). -/
def execPowmod (rd ra rb rc : RegIdx) (s : State) : Outcome :=
  let o := s.operands (.powmod rd ra rb rc)
  .next (s.complete
    (if o.b = 0 then finish s.cfg.maxw rd 1 false
     else if o.c = 0 then .failed .divZero
     else finish s.cfg.maxw rd (powMod o.a o.b o.c) false))

end Sys2Proof.Machine
end

