-- ==== Sys2Proof/Machine/Accept.lean ====
section
/-! DEFINITION. The acceptance of a command word (10_state.md R38) and the engine's step (R40). -/

namespace Sys2Proof.Machine

/-- R38, the part common to every acceptance: `CMDREG <- w ; S.DONE <- 0 ; S.ERR <- 0 ; S.ECODE <- 0`. -/
def State.beginCommand (s : State) (w : Word) : State :=
  { s with cmdreg := w, status := { s.status with done := false, err := false, ecode := 0 } }

/-- R38, the arm `cmd`: `PEND <- (cmd, V[RA], V[RB], V[RC]) ; S.BUSY <- 1`. -/
def State.enqueue (s : State) (i : Instr) : State :=
  { s with pend := some { instr := i, ops := s.capture i }, status := { s.status with busy := true } }

/-- R38: a host write of `w` to CMD while `S.BUSY = 0`.  NOP and an ILLEGAL word complete in this step (R90, R131); any
other command is left to the engine. -/
def State.accept (s : State) (w : Word) : Outcome :=
  match decodeWord w with
  | .ok .nop => exec .nop (s.beginCommand w)
  | .ok i => .next ((s.beginCommand w).enqueue i)
  | .error _ => .next ((s.beginCommand w).raise .illegalCmd)

/-- R40: "The completion is the engine's step, enabled iff `S.BUSY = 1`."  A turn given to the idle engine changes
nothing: "An idle BNCORE (BUSY = 0) simply holds its state" (R149); so does one whose BUSY and PEND disagree, which
no run reaches (DESIGN CHOICE, log 13). -/
def engineStep (s : State) : Outcome :=
  match s.status.busy, s.pend with
  | true, some p => exec p.instr s
  | _, _ => .next s

/-- R150, R151: a platform reset in any state abandons a pending command and leaves exactly the reset state, with the
same parameters; the inputs still to come are the outside world's and stay (DESIGN CHOICE, log 14). -/
def platformReset (s : State) : Outcome := .next { State.resetWith s.cfg with events := s.events }

end Sys2Proof.Machine
end

