-- ==== Sys2Proof/WellFormed.lean ====
section
/-! DEFINITION. The checks on terms.  A command needs none: its register fields are `Fin 16`, "any combination of
indices is legal, including equal indices" (30_encoding.md R73), so every term of `Instr` is well formed by its type
and `Instr.wf` says so for uniformity.  What can be ill formed is a pseudo-instruction (R83), a host access (R54) and a
configuration (R9, R50: `Config.valid`). -/

namespace Sys2Proof

/-- Every term of `Instr` is a legal command (R73). -/
def Instr.wf (_ : Instr) : Bool := true

/-- R83, column "condition": `MODMUL` and `MODSQR` need `vd ≠ vm`. -/
def Pseudo.wf : Pseudo → Bool
  | .div _ _ _ => true
  | .mod _ _ _ => true
  | .sqr _ _ => true
  | .modmul vd _ _ vm => vd != vm
  | .modsqr vd _ vm => vd != vm

/-- R54: the one legal shape of an aperture access, 4 bytes wide at a 4-byte-aligned offset. -/
def accessWf (off width : Nat) : Bool := off % 4 == 0 && width == 4

end Sys2Proof
end

