-- ==== Sys2Proof/Machine/Aperture.lean ====
section
/-! DEFINITION. The host aperture: the register map (20_memory.md R52), the host read (R57) and the host write (R58). -/

namespace Sys2Proof.Machine

/-- The registers of the map of R52; `win k` is word `k` of the window, and `reserved` every offset that is RAZ/WI. -/
inductive Port where
  | id | config | cmd | status | ctrl | sel | len | bitlen | vclr
  | win (k : Nat)
  | reserved
  deriving DecidableEq, Repr

/-- R52: the register at an aligned offset; window words `k >= MAXW` are reserved (R36). -/
def portAt (maxw off : Nat) : Port :=
  if off = 0x000 then .id
  else if off = 0x004 then .config
  else if off = 0x008 then .cmd
  else if off = 0x00C then .status
  else if off = 0x010 then .ctrl
  else if off = 0x014 then .sel
  else if off = 0x018 then .len
  else if off = 0x01C then .bitlen
  else if off = 0x020 then .vclr
  else if 0x800 ≤ off ∧ off < 0x800 + 4 * maxw then .win ((off - 0x800) / 4)
  else .reserved

/-- R31: "BN", version 1. -/
def idWord : Word := 0x424E0001

/-- R32: NREG in bits [7:0], MAXW in bits [19:8]. -/
def configWord (c : Config) : Word := BitVec.ofNat 32 (Config.nreg + c.maxw * 256)

/-- R57: the value a host read of a port returns; LEN and BITLEN are "computed at the read from the current words"
(R35), and reserved offsets and VCLR read 0 (R55, R37). -/
def State.readPort (s : State) : Port → Word
  | .id => idWord
  | .config => configWord s.cfg
  | .cmd => s.cmdreg
  | .status => s.status.toWord
  | .ctrl => (BitVec.ofBool s.ie).setWidth 32
  | .sel => BitVec.ofNat 32 s.sel.val
  | .len => BitVec.ofNat 32 (wordLen (s.value s.sel))
  | .bitlen => BitVec.ofNat 32 (bitLen (s.value s.sel))
  | .vclr => 0
  | .win k => s.word s.sel k
  | .reserved => 0

/-- `MemRead(off, 4)` (R57). -/
def State.memRead (s : State) (off : Nat) : Word := s.readPort (portAt s.cfg.maxw off)

/-- R56: the byte at aperture byte offset `off + j`, `j < 4`, is byte lane `j` of the bus word at the aligned `off`. -/
def State.byteAt (s : State) (byteOff : Nat) : Byte := byteLane (s.memRead (byteOff - byteOff % 4)) (byteOff % 4)

/-- R39: a dropped CMD write. -/
def State.loseCmd (s : State) : State := { s with status := { s.status with cmdlost := true } }

/-- R39: a dropped WIN or VCLR write. -/
def State.loseWin (s : State) : State := { s with status := { s.status with winlost := true } }

/-- R58: the effect of a host write of `w` to a port.  Writes to the read-only ports and to reserved offsets are ignored
(R55). -/
def State.writePort (s : State) (w : Word) : Port → Outcome
  | .cmd => if s.status.busy then .next s.loseCmd else s.accept w
  | .status => .next { s with status := s.status.clearWritten w }
  | .ctrl => .next { s with ie := w.getLsbD 0 }
  | .sel => .next { s with sel := (w.extractLsb' 0 4).toFin }
  | .vclr => .next (if w.getLsbD 0 then (if s.status.busy then s.loseWin else s.clearReg s.sel) else s)
  | .win k => .next (if s.status.busy then s.loseWin else s.setWord s.sel k w)
  | .id => .next s
  | .config => .next s
  | .len => .next s
  | .bitlen => .next s
  | .reserved => .next s

/-- `MemWrite(off, 4, w)` (R58). -/
def State.memWrite (s : State) (off : Nat) (w : Word) : Outcome := s.writePort w (portAt s.cfg.maxw off)

/-- R50: the aperture offset of a platform address, none outside the 4096 bytes at `BASE`. -/
def offsetOf (c : Config) (addr : Nat) : Option Nat :=
  if c.base ≤ addr ∧ addr < c.base + Config.apertureBytes then some (addr - c.base) else none

/-- The host's step (R20): one bus access.  A read leaves its data in `reply` and changes no BNCORE state (R57); an access
that is not 4 bytes wide at an aligned offset is the fault R54 prescribes. -/
def hostStep (a : Access) (s : State) : Outcome :=
  match offsetOf s.cfg a.addr with
  | none => .fault (.outsideAperture a)
  | some off =>
    if accessWf off a.width then
      match a.op with
      | .read => .next { s with reply := some (s.memRead off) }
      | .write w => State.memWrite { s with reply := none } off w
    else .fault (.busError a)

/-- The host write that issues the command word `w` (R33: CMD is at offset 0x008). -/
def cmdWrite (c : Config) (w : Word) : Event := .host { op := .write w, addr := c.base + 0x008, width := 4 }

/-- Make `w` the command the very next step runs (log 8).  A legal command other than NOP is placed where the engine
takes it: accepted into PEND with its snapshot (R38), the engine's turn next.  NOP and an ILLEGAL word never reach the
engine (R90, R131): their host write is the next step. -/
def State.loadCommand (s : State) (w : Word) : State :=
  let idle := { s with pend := none, status := { s.status with busy := false } }
  let byWrite := { idle with events := cmdWrite s.cfg w :: s.events }
  match decodeWord w with
  | .ok .nop => byWrite
  | .ok i => { (idle.beginCommand w).enqueue i with events := .engine :: s.events }
  | .error _ => byWrite

end Sys2Proof.Machine
end

