-- ==== Sys2Proof/Machine/Step.lean ====
section
/-! DEFINITION. One step of BNCORE (10_state.md R20): the next input is taken, a host access, an engine turn or a
platform reset.  When no input is left the engine goes, so a busy engine's step is "eventually taken" (R41). -/

namespace Sys2Proof.Machine

/-- One step under a valid configuration. -/
def stepEvent (s : State) : Outcome :=
  match s.events with
  | [] => engineStep s
  | .engine :: es => engineStep { s with events := es }
  | .reset :: es => platformReset { s with events := es }
  | .host a :: es => hostStep a { s with events := es }

/-- One step; parameters that are no BNCORE configuration are refused (U15). -/
def step (s : State) : Host.Outcome State Fault Refusal :=
  if s.cfg.valid then stepEvent s else .refused (.badConfiguration s.cfg)

/-- `s` with the command word `w` placed so that the very next step runs it (log 8). -/
def State.withFetchWord (s : State) (nbits w : Nat) : State := s.loadCommand (tableWord nbits w)

end Sys2Proof.Machine
end

