-- ==== Sys2Proof/Machine/Divider.lean ====
section
/-! DEFINITION. The long-division engine (41_division.md R110 to R113): the single-word Horner path and Knuth
Algorithm D, word by word.  "Only the values that rules R114 and R115 state are architectural, and the algorithm
produces them": `Obligations.DivisionEngine…` say so of this text.  Its scratch words are local values (R45). -/

namespace Sys2Proof.Machine

/-! ### The single-word path -/

/-- R111: from the most significant word (the end of the list) down, `r <- (r << 32) | u[i] ; q[i] <- r div d ;
r <- r - q[i]*d`.  Gives the quotient words and the remainder. -/
def horner (d : Nat) : List Word → List Word × Nat
  | [] => ([], 0)
  | u :: us =>
    let (q, r₀) := horner d us
    let r := r₀ * radix + u.toNat
    let q₀ := r / d
    (BitVec.ofNat 32 q₀ :: q, r - q₀ * d)

/-- R111: quotient and remainder of the single-word path. -/
def divideSingle (a d : Nat) : Nat × Nat :=
  let (q, r) := horner d (mag a)
  (val (strip q), r)

/-! ### Knuth Algorithm D -/

/-- R112 (*2): the correction loop, `while rhat < 2^32 and qhat*vn[n-2] > rhat*2^32 + un[j+n-2]`.  "Each has at most two
corrections" (R160): the first argument is that bound (DEDUCED, log 11). -/
def correctDigit (v₁ v₂ u₂ : Nat) : Nat → Nat → Nat → Nat
  | 0, qhat, _ => qhat
  | k + 1, qhat, rhat =>
    if rhat < radix ∧ qhat * v₂ > rhat * radix + u₂ then correctDigit v₁ v₂ u₂ k (qhat - 1) (rhat + v₁) else qhat

/-- R112: the digit estimate from the top two divisor words `v₁ v₂` and the top three dividend words `u₀ u₁ u₂` of the
window, with the fall back to the maximum word value and then the correction. -/
def estimateDigit (v₁ v₂ u₀ u₁ u₂ : Nat) : Nat :=
  let num := u₀ * radix + u₁
  if u₀ ≥ v₁ then correctDigit v₁ v₂ u₂ 2 (radix - 1) (num - (radix - 1) * v₁)
  else correctDigit v₁ v₂ u₂ 2 (num / v₁) (num % v₁)

/-- R112: `borrow <- (t < 0) ? 1 : 0`, the borrow of one signed word difference. -/
def borrowOf (t : Int) : Nat := if t < 0 then 1 else 0

/-- R112: "multiply and subtract: un[j .. j+n] <- un[j .. j+n] - qhat * vn".  Gives the new window and the final borrow. -/
def mulSub (qhat : Nat) : List Word → List Word → Nat → Nat → List Word × Nat
  | [], us, carry, borrow =>
    let t : Int := ((us.headD 0).toNat : Int) - carry - borrow
    ([BitVec.ofInt 32 t], borrowOf t)
  | v :: vs, us, carry, borrow =>
    let p := qhat * v.toNat + carry
    let t : Int := ((us.headD 0).toNat : Int) - ((p % radix : Nat) : Int) - borrow
    let (rest, b) := mulSub qhat vs us.tail (p >>> 32) (borrowOf t)
    (BitVec.ofInt 32 t :: rest, b)

/-- R112 (*3): "underflow: add back", the divisor added to the window, the carry out of its top word dropped. -/
def addBack : List Word → List Word → Nat → List Word
  | [], us, c => [BitVec.ofNat 32 ((us.headD 0).toNat + c)]
  | v :: vs, us, c =>
    let t := (us.headD 0).toNat + v.toNat + c
    BitVec.ofNat 32 (t % radix) :: addBack vs us.tail (t >>> 32)

/-- R112: the body of the loop for one quotient position, on the window `un[j .. j+n]`. -/
def knuthStep (vn window : List Word) : Word × List Word :=
  let n := vn.length
  let word (l : List Word) (k : Nat) : Nat := (l.getD k 0).toNat
  let qhat := estimateDigit (word vn (n - 1)) (word vn (n - 2)) (word window n) (word window (n - 1)) (word window (n - 2))
  let (window₁, borrow) := mulSub qhat vn window 0 0
  if borrow = 1 then (BitVec.ofNat 32 (qhat - 1), addBack vn window₁ 0) else (BitVec.ofNat 32 qhat, window₁)

/-- R112: the loop `for j from m downto 0`.  `below` holds the dividend words under the window, most significant first;
the window of the next position is the next such word under the low `n` words of the present one (the top word is not
used again).  Gives the quotient words, least significant first, and the last window. -/
def knuthLoop (vn : List Word) : List Word → List Word → List Word → List Word × List Word
  | [], window, q =>
    let (d, w) := knuthStep vn window
    (d :: q, w)
  | u :: below, window, q =>
    let (d, w) := knuthStep vn window
    knuthLoop vn below (u :: w.take vn.length) (d :: q)

/-- R112: Algorithm D for a divisor of at least two words, with its normalizing shift and the early exit (*1). -/
def divideKnuth (a b : Nat) : Nat × Nat :=
  let n := wordLen b
  let k := wordLen a
  if k < n then (0, a)
  else
    let s := 32 * n - bitLen b
    let vn := wordsOf n (b <<< s)
    let un := wordsOf (k + 1) (a <<< s)
    let m := k - n
    let (q, w) := knuthLoop vn (un.take m).reverse (un.drop m) []
    (val q, val (w.take n) >>> s)

/-! ### The engine -/

/-- The two values of the mode flag M (R113, 30_encoding.md R71). -/
inductive DivMode where
  | quotient
  | remainder
  deriving DecidableEq, Repr

/-- R110: the path is chosen by the divisor's normalized length; length 0 is a division by zero (R117). -/
def divide (a b : Nat) : Option (Nat × Nat) :=
  if wordLen b = 0 then none
  else if wordLen b = 1 then some (divideSingle a b)
  else some (divideKnuth a b)

/-- R113: "Exactly one of quotient or remainder is materialized per call depending on a mode flag". -/
def divideEngine (mode : DivMode) (a b : Nat) : Option Nat :=
  match divide a b with
  | none => none
  | some (q, r) => some (match mode with | .quotient => q | .remainder => r)

end Sys2Proof.Machine
end

