-- ==== Sys2Proof/Machine/Kernels.lean ====
section
/-! DEFINITION. The word-level algorithms of the adder, the subtractor, the multiplier and the comparison
(40_arith_kernels.md R93, R95, R97, R99).  A meaning states the exact value (R92, R94, R96, R98); these are the
companion datapaths, and the obligations `…Datapath…` say that they compute the same values.  Their working storage is
"internal" (10_state.md R45): it is a local value here and no field of State. -/

namespace Sys2Proof.Machine

/-- R93: `t <- x[i] + y[i] + c ; z <- z ++ [t mod 2^32] ; c <- t >> 32` over the words of the longer operand `x`, the
words of `y` beyond its length not added; then `if c = 1 : z <- z ++ [1]`. -/
def addCarry : List Word → List Word → Nat → List Word
  | [], _, c => if c = 1 then [1] else []
  | x :: xs, [], c =>
    let t := x.toNat + c
    BitVec.ofNat 32 (t % radix) :: addCarry xs [] (t >>> 32)
  | x :: xs, y :: ys, c =>
    let t := x.toNat + y.toNat + c
    BitVec.ofNat 32 (t % radix) :: addCarry xs ys (t >>> 32)

/-- R93: the adder, on normalized operands, the longer one first. -/
def adder (a b : Nat) : List Word :=
  if wordLen a < wordLen b then addCarry (mag b) (mag a) 0 else addCarry (mag a) (mag b) 0

/-- R95: `t <- x[i] - (if i < len(y) then y[i] else 0) - br`, a signed accumulator; a negative `t` gains `2^32` and
borrows.  A word beyond the end of `y` is the default 0. -/
def subBorrow : List Word → List Word → Int → List Word
  | [], _, _ => []
  | x :: xs, ys, br =>
    let t : Int := (x.toNat : Int) - ((ys.headD 0).toNat : Int) - br
    if t < 0 then BitVec.ofNat 32 (t + radix).toNat :: subBorrow xs ys.tail 1
    else BitVec.ofNat 32 t.toNat :: subBorrow xs ys.tail 0

/-- R95: the subtractor, "run only when `a >= b`". -/
def subtractor (a b : Nat) : List Word := strip (subBorrow (mag a) (mag b) 0)

/-- R97, inner loop, on the words of `z` from position `i` on: `t <- x[i]*y[j] + z[i+j] + c`, then the final carry flush
`z[i+len(y)] <- c`. -/
def mulRow (x : Word) : List Word → List Word → Nat → List Word
  | [], zs, c => BitVec.ofNat 32 c :: zs.tail
  | y :: ys, zs, c =>
    let t := x.toNat * y.toNat + (zs.headD 0).toNat + c
    BitVec.ofNat 32 (t % radix) :: mulRow x ys zs.tail (t >>> 32)

/-- R97, outer loop: one row per word of `x`, each at the next offset of `z`. -/
def mulRows : List Word → List Word → List Word → List Word
  | [], _, zs => zs
  | x :: xs, ys, zs =>
    match mulRow x ys zs 0 with
    | [] => []
    | z :: zs' => z :: mulRows xs ys zs'

/-- R97: the schoolbook multiplier into `len(x)+len(y)` zero words, "before leading-zero stripping". -/
def multiplier (a b : Nat) : List Word :=
  strip (mulRows (mag a) (mag b) (List.replicate (wordLen a + wordLen b) 0))

/-- R99: words "from the most significant down to the first that differs", on two lists given most significant first. -/
def compareDown : List Word → List Word → BitVec 2
  | x :: xs, y :: ys => if x = y then compareDown xs ys else if x.toNat > y.toNat then 0b01 else 0b10
  | _, _ => 0b00

/-- R99: "compares `len(a)` with `len(b)`, then compares words". -/
def comparator (a b : Nat) : BitVec 2 :=
  if wordLen a > wordLen b then 0b01
  else if wordLen a < wordLen b then 0b10
  else compareDown (mag a).reverse (mag b).reverse

end Sys2Proof.Machine
end

