-- ==== Sys2Proof/Machine/Assembler.lean ====
section
/-! DEFINITION. The assembler text of 30_encoding.md R82 and the pseudo-instructions of R83, over lists of characters.
None of this is a step of BNCORE: it is how the spec writes command words down.  White space, the case
of mnemonics and empty lines are the model's (DESIGN CHOICE, log 15). -/

namespace Sys2Proof.Machine

/-- R83: the commands a pseudo-instruction stands for, "issued in order, each after the previous one completes". -/
def expandPseudo : Pseudo → List Instr
  | .div vd va vb => [.divq vd va vb]
  | .mod vd va vb => [.divr vd va vb]
  | .sqr vd va => [.mul vd va va]
  | .modmul vd va vb vm => [.mul vd va vb, .divr vd vd vm]
  | .modsqr vd va vm => [.mul vd va va, .divr vd vd vm]

/-- Why a line is no command of R82 or R83. -/
inductive AsmError where
  | unknownMnemonic
  | badOperand
  | wrongOperandCount
  /-- R83: `MODMUL` or `MODSQR` with `vd = vm`. -/
  | pseudoCondition
  deriving DecidableEq, Repr

/-- The decimal digits of a register index. -/
def regDigits (r : RegIdx) : List Char :=
  if r.val < 10 then [Char.ofNat (48 + r.val)] else ['1', Char.ofNat (38 + r.val)]

/-- The name of a V register, `v0..v15`. -/
def regName (r : RegIdx) : List Char := 'v' :: regDigits r

/-- R82: "Register names are case-insensitive." -/
def parseReg : List Char → Option RegIdx
  | c :: ds => if c = 'v' ∨ c = 'V' then (List.finRange 16).find? (fun r => regDigits r == ds) else none
  | [] => none

/-- White space inside a line. -/
def isSpace (c : Char) : Bool := c == ' ' || c == '\t' || c == '\r'

/-- R82: "Comments start with `;`." -/
def dropComment (line : List Char) : List Char := line.takeWhile (· != ';')

/-- Remove white space at both ends. -/
def trim (l : List Char) : List Char := ((l.dropWhile isSpace).reverse.dropWhile isSpace).reverse

/-- The comma-separated parts of an operand list. -/
def splitCommas : List Char → List (List Char)
  | [] => [[]]
  | c :: cs =>
    match splitCommas cs with
    | [] => [[c]]
    | part :: parts => if c = ',' then [] :: part :: parts else (c :: part) :: parts

/-- R82: a mnemonic with its register operands in the order listed there, or a pseudo-instruction of R83. -/
def selectCommand (mnemonic : List Char) (regs : List RegIdx) : Except AsmError (List Instr) :=
  let pseudo (p : Pseudo) : Except AsmError (List Instr) :=
    if p.wf then .ok (expandPseudo p) else .error .pseudoCondition
  if mnemonic = ['N', 'O', 'P'] then
    match regs with | [] => .ok [.nop] | _ => .error .wrongOperandCount
  else if mnemonic = ['A', 'D', 'D'] then
    match regs with | [d, a, b] => .ok [.add d a b] | _ => .error .wrongOperandCount
  else if mnemonic = ['S', 'U', 'B'] then
    match regs with | [d, a, b] => .ok [.sub d a b] | _ => .error .wrongOperandCount
  else if mnemonic = ['M', 'U', 'L'] then
    match regs with | [d, a, b] => .ok [.mul d a b] | _ => .error .wrongOperandCount
  else if mnemonic = ['D', 'I', 'V', 'Q'] then
    match regs with | [d, a, b] => .ok [.divq d a b] | _ => .error .wrongOperandCount
  else if mnemonic = ['D', 'I', 'V', 'R'] then
    match regs with | [d, a, b] => .ok [.divr d a b] | _ => .error .wrongOperandCount
  else if mnemonic = ['P', 'O', 'W', 'M', 'O', 'D'] then
    match regs with | [d, a, b, c] => .ok [.powmod d a b c] | _ => .error .wrongOperandCount
  else if mnemonic = ['C', 'M', 'P'] then
    match regs with | [a, b] => .ok [.cmp a b] | _ => .error .wrongOperandCount
  else if mnemonic = ['D', 'I', 'V'] then
    match regs with | [d, a, b] => pseudo (.div d a b) | _ => .error .wrongOperandCount
  else if mnemonic = ['M', 'O', 'D'] then
    match regs with | [d, a, b] => pseudo (.mod d a b) | _ => .error .wrongOperandCount
  else if mnemonic = ['S', 'Q', 'R'] then
    match regs with | [d, a] => pseudo (.sqr d a) | _ => .error .wrongOperandCount
  else if mnemonic = ['M', 'O', 'D', 'M', 'U', 'L'] then
    match regs with | [d, a, b, m] => pseudo (.modmul d a b m) | _ => .error .wrongOperandCount
  else if mnemonic = ['M', 'O', 'D', 'S', 'Q', 'R'] then
    match regs with | [d, a, m] => pseudo (.modsqr d a m) | _ => .error .wrongOperandCount
  else .error .unknownMnemonic

/-- R82: "one command per line, with the mnemonic followed by register operands".  An empty line or a comment alone
holds no command. -/
def assembleLine (line : List Char) : Except AsmError (List Instr) :=
  let l := trim (dropComment line)
  match l with
  | [] => .ok []
  | _ =>
    let mnemonic := l.takeWhile (fun c => !isSpace c)
    let rest := trim (l.dropWhile (fun c => !isSpace c))
    match rest with
    | [] => selectCommand mnemonic []
    | _ =>
      match (splitCommas rest).mapM (fun part => parseReg (trim part)) with
      | some regs => selectCommand mnemonic regs
      | none => .error .badOperand

/-- R82: a command as assembler text. -/
def printInstr : Instr → List Char
  | .nop => ['N', 'O', 'P']
  | .add d a b => ['A', 'D', 'D', ' '] ++ regName d ++ [',', ' '] ++ regName a ++ [',', ' '] ++ regName b
  | .sub d a b => ['S', 'U', 'B', ' '] ++ regName d ++ [',', ' '] ++ regName a ++ [',', ' '] ++ regName b
  | .mul d a b => ['M', 'U', 'L', ' '] ++ regName d ++ [',', ' '] ++ regName a ++ [',', ' '] ++ regName b
  | .divq d a b => ['D', 'I', 'V', 'Q', ' '] ++ regName d ++ [',', ' '] ++ regName a ++ [',', ' '] ++ regName b
  | .divr d a b => ['D', 'I', 'V', 'R', ' '] ++ regName d ++ [',', ' '] ++ regName a ++ [',', ' '] ++ regName b
  | .powmod d a b c => ['P', 'O', 'W', 'M', 'O', 'D', ' '] ++ regName d ++ [',', ' '] ++ regName a ++ [',', ' ']
      ++ regName b ++ [',', ' '] ++ regName c
  | .cmp a b => ['C', 'M', 'P', ' '] ++ regName a ++ [',', ' '] ++ regName b

end Sys2Proof.Machine
end

