-- ==== Sys2Proof/Machine/Script.lean ====
section
/-! DEFINITION. The host script forms of 30_encoding.md R84 as lists of inputs for `State.events`.  They describe what
the host does to BNCORE; `goto`, `if` and labels are the host's own control flow and are no input of BNCORE. -/

namespace Sys2Proof.Machine

/-- R84: `wr OFF, VALUE` is `MemWrite(OFF, 4, VALUE)`. -/
def wr (c : Config) (off : Nat) (v : Word) : Event := .host { op := .write v, addr := c.base + off, width := 4 }

/-- R84: `rd OFF -> name` is `MemRead(OFF, 4)`; the value read is in `State.reply` after the step. -/
def rd (c : Config) (off : Nat) : Event := .host { op := .read, addr := c.base + off, width := 4 }

/-- `wr WIN[k], word_k(n)` for each word of a list, from window word `k` on. -/
def wrWindow (c : Config) : Nat → List Word → List Event
  | _, [] => []
  | k, w :: ws => wr c (0x800 + 4 * k) w :: wrWindow c (k + 1) ws

/-- R84: `wrv i, n` stands for `wr SEL, i`, then `wr VCLR, 1`, then `wr WIN[k], word_k(n)` for each `k < len(n)`. -/
def wrv (c : Config) (i : RegIdx) (n : Nat) : List Event :=
  wr c 0x014 (BitVec.ofNat 32 i.val) :: wr c 0x020 1 :: wrWindow c 0 (mag n)

/-- R84: `cmd TEXT` is `wr CMD, encode(TEXT)`, for each command of the line; the engine's turn after each says that the
next one is issued "after the previous one completes" (R83). -/
def issue (c : Config) (is : List Instr) : List Event := is.flatMap (fun i => [wr c 0x008 (encode i), .engine])

/-- R84: `wait: rd STATUS -> s ; if s[0] = 1 goto wait`, unrolled for the schedule in which the completion comes after
`n` polls: they read BUSY = 1, and the one after the completion reads BUSY = 0. -/
def pollUntilDone (c : Config) (n : Nat) : List Event := List.replicate n (rd c 0x00C) ++ [.engine, rd c 0x00C]

end Sys2Proof.Machine
end

