-- ==== Sys2Proof/Safety.lean ====
section
/-! DEFINITION. The terms in which claims are stated: the invariant of BNCORE, the frame of a command, and the shape of
an error completion. -/

namespace Sys2Proof.Machine

/-- R130: which codes the completion of a command can leave in ECODE, by the command CMDREG holds. -/
def codeFits (cmdreg : Word) (ecode : BitVec 4) : Prop :=
  match decodeWord cmdreg with
  | .error _ => ecode = 1
  | .ok .nop => ecode = 0
  | .ok (.cmp _ _) => ecode = 0
  | .ok (.add _ _ _) => ecode = 0 ∨ ecode = 4
  | .ok (.mul _ _ _) => ecode = 0 ∨ ecode = 4
  | .ok (.sub _ _ _) => ecode = 0 ∨ ecode = 3
  | .ok (.divq _ _ _) => ecode = 0 ∨ ecode = 2
  | .ok (.divr _ _ _) => ecode = 0 ∨ ecode = 2
  | .ok (.powmod _ _ _ _) => ecode = 0 ∨ ecode = 2

/-- R22: every V register is an array of `MAXW` words. -/
def State.Sized (s : State) : Prop := ∀ r : RegIdx, (s.words r).length = s.cfg.maxw

/-- What holds in every state BNCORE can be in. -/
structure State.Inv (s : State) : Prop where
  /-- R9, R50. -/
  valid : s.cfg.valid = true
  /-- R22. -/
  sized : s.Sized
  /-- R43: PEND "is `none` when `S.BUSY = 0`", and R38 sets both together. -/
  busy_pend : s.status.busy = s.pend.isSome
  /-- R30: "The value 0b11 is never produced." -/
  cmp_legal : s.status.cmp ≠ 0b11
  /-- R27: ERR is "1 iff the last completed command ended with ECODE ≠ 0". -/
  err_code : s.status.err = decide (s.status.ecode ≠ 0)
  /-- R38: a pending command is the one CMDREG holds, and DONE, ERR and ECODE are clear. -/
  pending : ∀ p, s.pend = some p →
    p.instr ≠ .nop ∧ decodeWord s.cmdreg = .ok p.instr ∧ s.status.done = false ∧ s.status.ecode = 0
  /-- R39: "the snapshot of rule R38 always equals the operand registers' contents". -/
  snapshot : ∀ p, s.pend = some p → p.ops = s.capture p.instr
  /-- R130: an idle BNCORE's ECODE is one its last command can leave. -/
  code : s.pend = none → codeFits s.cmdreg s.status.ecode

/-- The frame of a command that writes V register `dest` (or none): every other word of every other V register, CMDREG,
CTRL, SEL, the two lost bits, the parameters, the inputs to come and the bus data are as before.  STATUS's other fields
and PEND are what a completion writes (R40). -/
structure CommandFrame (dest : Option RegIdx) (s t : State) : Prop where
  regs : ∀ r : RegIdx, dest ≠ some r → t.words r = s.words r
  cmdreg : t.cmdreg = s.cmdreg
  ie : t.ie = s.ie
  sel : t.sel = s.sel
  cmdlost : t.status.cmdlost = s.status.cmdlost
  winlost : t.status.winlost = s.status.winlost
  cfg : t.cfg = s.cfg
  events : t.events = s.events
  reply : t.reply = s.reply

/-- The status fields every completion writes, with code `e` (R40, R139): BUSY 0, DONE 1, ERR iff `e ≠ 0`, ECODE `e`, and
PEND none. -/
structure Completed (e : BitVec 4) (t : State) : Prop where
  busy : t.status.busy = false
  done : t.status.done = true
  err : t.status.err = decide (e ≠ 0)
  ecode : t.status.ecode = e
  pend : t.pend = none

/-- A successful completion that writes `x` to `rd` with flags `z` and `cy` (R40, R24, R28, R29): the value, all words
above its length zero, the flags, CMP as before, and the frame. -/
structure Wrote (rd : RegIdx) (x : Nat) (z cy : Bool) (s t : State) : Prop where
  value : t.value rd = x
  words : t.words rd = wordsOf s.cfg.maxw x
  zflag : t.status.z = z
  cyflag : t.status.cy = cy
  cmp : t.status.cmp = s.status.cmp
  completed : Completed 0 t
  frame : CommandFrame (some rd) s t

/-- R135: an error completion with code `e`: no V register and none of Z, CY and CMP is written. -/
structure Failed (e : BitVec 4) (s t : State) : Prop where
  zflag : t.status.z = s.status.z
  cyflag : t.status.cy = s.status.cy
  cmp : t.status.cmp = s.status.cmp
  completed : Completed e t
  frame : CommandFrame none s t

/-- R163: the accesses that are safe while BUSY = 1: reads of any offset, and writes to SEL, CTRL, STATUS and reserved or
read-only offsets. -/
def safeWhileBusy (maxw off : Nat) : BusOp → Bool
  | .read => true
  | .write _ =>
    match portAt maxw off with
    | .cmd => false
    | .vclr => false
    | .win _ => false
    | _ => true

end Sys2Proof.Machine
end

