-- ==== Sys2Proof/Certificates/Slice0/Obligations.lean ====
section
/-! DEFINITION. The statements for the provers.  Each docstring names the rules of spec/ it formalises. -/

open Sys2Proof Sys2Proof.Machine

/-! ### Encoding (30_encoding.md) -/

/-- R71, R73, R74, R80, R82: decoding the word of a command gives the command back, whatever its register fields; the
same through the byte lanes of R56, with whatever bytes follow. -/
def Obligations.DecodeEncodeAgree : Prop :=
  ∀ (i : Instr) (rest : List Byte),
    decodeWord (encode i) = .ok i ∧ decodeBytes (encodeBytes i ++ rest) = .ok (i, rest)

/-- R72, R80: a legal word carries nothing but its command; every unused field and reserved bit is 0, so encoding what
was decoded gives the word back. -/
def Obligations.LegalWordIsItsEncoding : Prop :=
  ∀ (w : Word) (i : Instr), decodeWord w = .ok i → encode i = w

/-- R74: "At most one row matches any word". -/
def Obligations.AtMostOneRowSelects : Prop :=
  ∀ (w : Word) (r₁ r₂ : Row), r₁ ∈ opcodeTable → r₂ ∈ opcodeTable →
    r₁.selects w = true → r₂.selects w = true → r₁ = r₂

/-- R72, R80: which words are ILLEGAL, said by the fields and not by the masks: OP in 0x7..0xF, or a nonzero RSV bit, or a
nonzero field that the opcode's format requires to be 0. -/
def Obligations.IllegalWordsByField : Prop :=
  ∀ w : Word, (∃ e, decodeWord w = .error e) ↔
    (7 ≤ (opField w).toNat ∨ rsvField w ≠ 0
      ∨ (opField w = 0 ∧ (rdField w ≠ 0 ∨ raField w ≠ 0 ∨ rbField w ≠ 0 ∨ rcField w ≠ 0 ∨ w.getLsbD 20 = true))
      ∨ ((opField w = 1 ∨ opField w = 2 ∨ opField w = 3) ∧ (rcField w ≠ 0 ∨ w.getLsbD 20 = true))
      ∨ (opField w = 4 ∧ rcField w ≠ 0)
      ∨ (opField w = 5 ∧ w.getLsbD 20 = true)
      ∨ (opField w = 6 ∧ (rdField w ≠ 0 ∨ rcField w ≠ 0 ∨ w.getLsbD 20 = true)))

/-- R74, R80: words written out from the table, one or more for each format, and illegal ones for each bullet of R80.  R80
gives all illegal words one result; the three names of the reasons are the model's own (DESIGN CHOICE, log 20). -/
def Obligations.TableWordsDecode : Prop :=
  decodeWord 0x00000000 = .ok .nop ∧
  decodeWord 0x00001021 = .ok (.add 2 0 1) ∧
  decodeWord 0x00000122 = .ok (.sub 2 1 0) ∧
  decodeWord 0x00002163 = .ok (.mul 6 1 2) ∧
  decodeWord 0x00001024 = .ok (.divq 2 0 1) ∧
  decodeWord 0x00107664 = .ok (.divr 6 6 7) ∧
  decodeWord 0x00001345 = .ok (.powmod 4 3 1 0) ∧
  decodeWord 0x00003506 = .ok (.cmp 5 3) ∧
  decodeWord 0x0000000F = .error (.reservedOpcode 0xF) ∧
  decodeWord 0x00201021 = .error .reservedBits ∧
  decodeWord 0x00100005 = .error .unusedFieldNonzero

/-- R82: the assembler text of a command assembles to that command alone. -/
def Obligations.AssemblerReadsPrintedCommand : Prop :=
  ∀ i : Instr, assembleLine (printInstr i) = .ok [i]

/-! ### Acceptance and the two agents (10_state.md) -/

/-- R38 whole: a host write of `w` to CMD while BUSY = 0.  CMDREG takes the word; NOP completes at once, an ILLEGAL word
completes at once with code 1, and any other command becomes pending with the operand registers' values and sets BUSY.
No V register and none of Z, CY, CMP, the lost bits, IE and SEL changes. -/
def Obligations.AcceptanceOfAnyWord : Prop :=
  ∀ (s : State) (w : Word) (es : List Event),
    s.cfg.valid = true → s.status.busy = false → s.pend = none → s.events = cmdWrite s.cfg w :: es →
    ∃ t, step s = .next t ∧ t.cmdreg = w ∧
      (decodeWord w = .ok .nop →
        t.pend = none ∧ t.status = { s.status with done := true, err := false, ecode := 0 }) ∧
      ((∃ e, decodeWord w = .error e) →
        t.pend = none ∧ t.status = { s.status with done := true, err := true, ecode := 1 }) ∧
      (∀ i, decodeWord w = .ok i → i ≠ .nop →
        t.pend = some ⟨i, ⟨s.value (raField w), s.value (rbField w), s.value (rcField w)⟩⟩ ∧
        t.status = { s.status with busy := true, done := false, err := false, ecode := 0 }) ∧
      t.v = s.v ∧ t.ie = s.ie ∧ t.sel = s.sel ∧ t.cfg = s.cfg ∧ t.events = es

/-- R131: an ILLEGAL word written to CMD while BUSY = 0 completes in the accepting step with DONE = 1, ERR = 1 and
ECODE = 1; BUSY is not set, CMDREG holds the word, and no V register and no flag changes. -/
def Obligations.IllegalWordCompletesAtAcceptance : Prop :=
  ∀ (s : State) (w : Word) (es : List Event) (e : DecodeError),
    s.cfg.valid = true → s.status.busy = false → s.events = cmdWrite s.cfg w :: es → decodeWord w = .error e →
    ∃ t, step s = .next t ∧ t.status.done = true ∧ t.status.err = true ∧ t.status.ecode = 1 ∧ t.status.busy = false ∧
      t.cmdreg = w ∧ t.v = s.v ∧ t.status.z = s.status.z ∧ t.status.cy = s.status.cy ∧ t.status.cmp = s.status.cmp

/-- R90: NOP is the word 0; at acceptance it sets DONE, clears ERR and ECODE and leaves BUSY 0 and Z, CY and CMP unchanged,
with no engine step (CMDREG takes the word, R38); written while BUSY = 1 it is dropped like any CMD write.  The second
clause is about `exec .nop` in every state: that it leaves BUSY and PEND alone where BUSY = 1, where R90 has no such step,
is the model's reading (DEDUCED, log 19). -/
def Obligations.NopCompletesAtAcceptance : Prop :=
  encode .nop = 0x00000000 ∧
  (∀ s : State, exec .nop s = .next { s with status := { s.status with done := true, err := false, ecode := 0 } }) ∧
  (∀ (s : State) (es : List Event),
    s.cfg.valid = true → s.status.busy = false → s.pend = none → s.events = cmdWrite s.cfg 0 :: es →
    ∃ t, step s = .next t ∧ t.status = { s.status with done := true, err := false, ecode := 0 } ∧ t.pend = none ∧
      CommandFrame none { s with cmdreg := 0, events := es, reply := none } t) ∧
  (∀ (s : State) (es : List Event),
    s.cfg.valid = true → s.status.busy = true → s.events = cmdWrite s.cfg 0 :: es →
    step s = .next { s with status := { s.status with cmdlost := true }, events := es, reply := none })

/-- R39: while BUSY = 1 a write to CMD is dropped and sets CMDLOST, a write to WIN[k] (k < MAXW) or to VCLR with bit 0 = 1
is dropped and sets WINLOST, no host access changes a V register or the pending command, a read of WIN, LEN or
BITLEN gives the current content, and in every state of the invariant the snapshot equals the operand registers' contents. -/
def Obligations.BusyDropsHostWrites : Prop :=
  (∀ (s : State) (w : Word) (es : List Event), s.cfg.valid = true → s.status.busy = true →
    s.events = wr s.cfg 0x008 w :: es →
    step s = .next { s with status := { s.status with cmdlost := true }, events := es, reply := none }) ∧
  (∀ (s : State) (w : Word) (k : Nat) (es : List Event), s.cfg.valid = true → s.status.busy = true → k < s.cfg.maxw →
    s.events = wr s.cfg (0x800 + 4 * k) w :: es →
    step s = .next { s with status := { s.status with winlost := true }, events := es, reply := none }) ∧
  (∀ (s : State) (w : Word) (es : List Event), s.cfg.valid = true → s.status.busy = true → w.getLsbD 0 = true →
    s.events = wr s.cfg 0x020 w :: es →
    step s = .next { s with status := { s.status with winlost := true }, events := es, reply := none }) ∧
  (∀ (s t : State) (a : Access) (es : List Event), s.status.busy = true → s.events = .host a :: es →
    step s = .next t → t.v = s.v ∧ t.pend = s.pend ∧ t.cmdreg = s.cmdreg ∧ t.status.busy = true) ∧
  (∀ (s : State) (k : Nat) (es : List Event), s.cfg.valid = true → s.status.busy = true → k < s.cfg.maxw →
    s.events = rd s.cfg (0x800 + 4 * k) :: es →
    step s = .next { s with events := es, reply := some (s.word s.sel k) }) ∧
  (∀ (s : State) (es : List Event), s.cfg.valid = true → s.status.busy = true → s.events = rd s.cfg 0x018 :: es →
    step s = .next { s with events := es, reply := some (BitVec.ofNat 32 (wordLen (s.value s.sel))) }) ∧
  (∀ (s : State) (es : List Event), s.cfg.valid = true → s.status.busy = true → s.events = rd s.cfg 0x01C :: es →
    step s = .next { s with events := es, reply := some (BitVec.ofNat 32 (bitLen (s.value s.sel))) }) ∧
  (∀ (s : State) (p : Pending), s.Inv → s.pend = some p →
    p.ops = ⟨s.value p.instr.fields.ra, s.value p.instr.fields.rb, s.value p.instr.fields.rc⟩)

/-- R40, R38: a step runs the decoded command.  A CMD write of a word that decodes to a command other than NOP makes it
pending, and the engine's next turn is `exec` of that command; a CMD write of NOP is `exec` of NOP in the accepting step.
With no input left a busy engine goes too (R41), and an idle engine's turn changes nothing (R149). -/
def Obligations.StepRunsDecodedCommand : Prop :=
  (∀ (s : State) (w : Word) (i : Instr) (es : List Event),
    s.cfg.valid = true → s.status.busy = false → decodeWord w = .ok i → i ≠ .nop →
    s.events = cmdWrite s.cfg w :: .engine :: es →
    ∃ t, step s = .next t ∧ t.pend = some ⟨i, s.capture i⟩ ∧ t.status.busy = true ∧
      step t = exec i { t with events := es }) ∧
  (∀ (s : State) (es : List Event),
    s.cfg.valid = true → s.status.busy = false → s.events = cmdWrite s.cfg (encode .nop) :: es →
    step s = exec .nop
      { s with
        cmdreg := encode .nop, events := es, reply := none
        status := { s.status with done := false, err := false, ecode := 0 } }) ∧
  (∀ (s : State) (p : Pending), s.cfg.valid = true → s.status.busy = true → s.pend = some p → s.events = [] →
    step s = exec p.instr s) ∧
  (∀ (s : State) (es : List Event), s.cfg.valid = true → s.status.busy = false → s.events = .engine :: es →
    step s = .next { s with events := es })

/-- R38, R40: `withFetchWord` places a command so that the very next step runs exactly it (the model's own loading form,
log 8): `exec` of the decoded command on its snapshot of the registers, an error completion with code 1 for an illegal
word. -/
def Obligations.FetchedWordRunsNext : Prop :=
  (∀ (s : State) (w : Nat) (i : Instr), s.cfg.valid = true → decodeTableWord 32 w = some i → i ≠ .nop →
    ∃ t, step (s.withFetchWord 32 w) = exec i t ∧ t.pend = some ⟨i, s.capture i⟩ ∧ t.v = s.v ∧ t.cfg = s.cfg ∧
      t.events = s.events ∧ t.cmdreg = tableWord 32 w) ∧
  (∀ (s : State) (w : Nat), s.cfg.valid = true → decodeTableWord 32 w = some .nop →
    ∃ t, step (s.withFetchWord 32 w) = exec .nop t ∧ t.v = s.v ∧ t.cfg = s.cfg ∧ t.events = s.events ∧ t.cmdreg = 0) ∧
  (∀ (s : State) (w : Nat), s.cfg.valid = true → decodeTableWord 32 w = none →
    ∃ t, step (s.withFetchWord 32 w) = .next t ∧ t.v = s.v ∧ t.cfg = s.cfg ∧ t.events = s.events ∧ t.status.ecode = 1 ∧
      t.cmdreg = tableWord 32 w)

/-! ### The commands (40_arith_kernels.md, 41_division.md, 42_modexp.md) -/

/-- R38, R40: the operands of a command are the snapshot taken at its acceptance.  (With no command pending the model
reads the registers, which is what an acceptance in that state captures; log 7.) -/
def Obligations.OperandsAreTheSnapshot : Prop :=
  (∀ (s : State) (i : Instr) (p : Pending), s.pend = some p → s.operands i = p.ops) ∧
  (∀ (s : State) (i : Instr), s.pend = none →
    s.operands i = ⟨s.value i.fields.ra, s.value i.fields.rb, s.value i.fields.rc⟩) ∧
  (∀ (s : State) (i : Instr), s.Inv → (∀ p, s.pend = some p → p.instr = i) →
    s.operands i = ⟨s.value i.fields.ra, s.value i.fields.rb, s.value i.fields.rc⟩)

/-- R92 whole: ADD writes the exact sum of its operands, Z iff it is 0, CY iff it has more words than the longer operand,
and ends with OVERFLOW (4) iff the sum does not fit in MAXW words; with the row of its encoding and the frame. -/
def Obligations.AddCompletes : Prop :=
  ∀ (s : State) (rd ra rb : RegIdx), let o := s.operands (.add rd ra rb)
    encode (.add rd ra rb) &&& 0xFFFF000F = 0x00000001 ∧
    (o.a + o.b < 2 ^ (32 * s.cfg.maxw) →
      ∃ t, exec (.add rd ra rb) s = .next t ∧
        Wrote rd (o.a + o.b) (decide (o.a + o.b = 0))
          (decide (wordLen (o.a + o.b) > max (wordLen o.a) (wordLen o.b))) s t) ∧
    (2 ^ (32 * s.cfg.maxw) ≤ o.a + o.b → ∃ t, exec (.add rd ra rb) s = .next t ∧ Failed 4 s t)

/-- R94 whole: SUB writes the exact difference when `a >= b`, with Z iff they are equal and CY = 0, and ends with
SUB_UNDERFLOW (3) iff `a < b`; OVERFLOW cannot occur for an operand that a register can hold. -/
def Obligations.SubCompletes : Prop :=
  ∀ (s : State) (rd ra rb : RegIdx), let o := s.operands (.sub rd ra rb)
    encode (.sub rd ra rb) &&& 0xFFFF000F = 0x00000002 ∧
    (o.b ≤ o.a → o.a < 2 ^ (32 * s.cfg.maxw) →
      ∃ t, exec (.sub rd ra rb) s = .next t ∧ Wrote rd (o.a - o.b) (decide (o.a = o.b)) false s t) ∧
    (o.a < o.b → ∃ t, exec (.sub rd ra rb) s = .next t ∧ Failed 3 s t)

/-- R96 whole: MUL writes the exact product, with Z iff an operand is 0 and CY = 0, and ends with OVERFLOW (4) iff the
product does not fit in MAXW words. -/
def Obligations.MulCompletes : Prop :=
  ∀ (s : State) (rd ra rb : RegIdx), let o := s.operands (.mul rd ra rb)
    encode (.mul rd ra rb) &&& 0xFFFF000F = 0x00000003 ∧
    (o.a * o.b < 2 ^ (32 * s.cfg.maxw) →
      ∃ t, exec (.mul rd ra rb) s = .next t ∧ Wrote rd (o.a * o.b) (decide (o.a = 0 ∨ o.b = 0)) false s t) ∧
    (2 ^ (32 * s.cfg.maxw) ≤ o.a * o.b → ∃ t, exec (.mul rd ra rb) s = .next t ∧ Failed 4 s t)

/-- R98 whole: CMP writes 0b00, 0b01 or 0b10 to STATUS.CMP as `a = b`, `a > b` or `a < b`, no V register, and neither Z nor
CY; it never fails. -/
def Obligations.CmpCompletes : Prop :=
  ∀ (s : State) (ra rb : RegIdx), let o := s.operands (.cmp ra rb)
    encode (.cmp ra rb) &&& 0xFFFF00FF = 0x00000006 ∧
    ∃ t, exec (.cmp ra rb) s = .next t ∧
      (o.a = o.b → t.status.cmp = 0b00) ∧ (o.b < o.a → t.status.cmp = 0b01) ∧ (o.a < o.b → t.status.cmp = 0b10) ∧
      t.status.z = s.status.z ∧ t.status.cy = s.status.cy ∧ Completed 0 t ∧ CommandFrame none s t

/-- R114 whole: DIVQ writes `a div b`, with Z iff `a < b` and CY = 0, and ends with DIV_ZERO (2) iff `b = 0`; OVERFLOW
cannot occur for an operand that a register can hold. -/
def Obligations.DivqCompletes : Prop :=
  ∀ (s : State) (rd ra rb : RegIdx), let o := s.operands (.divq rd ra rb)
    encode (.divq rd ra rb) &&& 0xFFFF000F = 0x00000004 ∧
    (o.b ≠ 0 → o.a < 2 ^ (32 * s.cfg.maxw) →
      ∃ t, exec (.divq rd ra rb) s = .next t ∧ Wrote rd (o.a / o.b) (decide (o.a < o.b)) false s t) ∧
    (o.b = 0 → ∃ t, exec (.divq rd ra rb) s = .next t ∧ Failed 2 s t)

/-- R115 whole: DIVR writes `a mod b`, with Z iff `b` divides `a` and CY = 0, and ends with DIV_ZERO (2) iff `b = 0`. -/
def Obligations.DivrCompletes : Prop :=
  ∀ (s : State) (rd ra rb : RegIdx), let o := s.operands (.divr rd ra rb)
    encode (.divr rd ra rb) &&& 0xFFFF000F = 0x00100004 ∧
    (o.b ≠ 0 → o.a < 2 ^ (32 * s.cfg.maxw) →
      ∃ t, exec (.divr rd ra rb) s = .next t ∧ Wrote rd (o.a % o.b) (decide (o.b ∣ o.a)) false s t) ∧
    (o.b = 0 → ∃ t, exec (.divr rd ra rb) s = .next t ∧ Failed 2 s t)

/-- R122 whole: POWMOD writes 1 when `e = 0` whatever `m` is, ends with DIV_ZERO (2) iff `e ≠ 0` and `m = 0`, and otherwise
writes `(a ^ e) mod m`; Z iff the result is 0, CY = 0; OVERFLOW cannot occur for a modulus that a register can hold. -/
def Obligations.PowmodCompletes : Prop :=
  ∀ (s : State) (rd ra rb rc : RegIdx), let o := s.operands (.powmod rd ra rb rc)
    encode (.powmod rd ra rb rc) &&& 0xFFF0000F = 0x00000005 ∧
    (o.b = 0 → 1 ≤ s.cfg.maxw → ∃ t, exec (.powmod rd ra rb rc) s = .next t ∧ Wrote rd 1 false false s t) ∧
    (o.b ≠ 0 → o.c = 0 → ∃ t, exec (.powmod rd ra rb rc) s = .next t ∧ Failed 2 s t) ∧
    (o.b ≠ 0 → o.c ≠ 0 → o.c < 2 ^ (32 * s.cfg.maxw) →
      ∃ t, exec (.powmod rd ra rb rc) s = .next t ∧
        Wrote rd (o.a ^ o.b % o.c) (decide (o.a ^ o.b % o.c = 0)) false s t)

/-- R116: the values written by DIVQ and DIVR from one state are the unique naturals with `Q*B + R = A` and `R < B`.  It is
about `exec` with no command pending, whose operands are the registers as they stand (the model's choice, log 7). -/
def Obligations.DivisionLaw : Prop :=
  ∀ (s : State) (rd ra rb : RegIdx), let o := s.operands (.divq rd ra rb)
    s.pend = none → s.Sized → o.b ≠ 0 →
    ∃ t u, exec (.divq rd ra rb) s = .next t ∧ exec (.divr rd ra rb) s = .next u ∧
      t.value rd * o.b + u.value rd = o.a ∧ u.value rd < o.b ∧
      ∀ q r : Nat, q * o.b + r = o.a → r < o.b → q = t.value rd ∧ r = u.value rd

/-- R100: "(A + B) - B == A and (A + B) - A == B" whenever no error is raised, as an ADD and then a SUB. -/
def Obligations.AddThenSubRestores : Prop :=
  ∀ (s t : State) (rd ra rb : RegIdx), s.pend = none → rd ≠ ra → rd ≠ rb → s.Sized →
    exec (.add rd ra rb) s = .next t → t.status.ecode = 0 →
    (∃ u, exec (.sub rd rd rb) t = .next u ∧ u.status.ecode = 0 ∧ u.value rd = s.value ra) ∧
    (∃ u, exec (.sub rd rd ra) t = .next u ∧ u.status.ecode = 0 ∧ u.value rd = s.value rb)

/-- R160, R40, R24: no command stops the machine, and every command's frame is that of its destination register. -/
def Obligations.EveryCommandKeepsItsFrame : Prop :=
  ∀ (i : Instr) (s : State), ∃ t, exec i s = .next t ∧ CommandFrame i.dest s t ∧ t.status.done = true

/-- R135: whenever a command ends with a nonzero code, the completion is exactly the error completion: that code, ERR, DONE,
BUSY 0, and no V register and none of Z, CY and CMP written. -/
def Obligations.ErrorsArePrecise : Prop :=
  ∀ (i : Instr) (s t : State), exec i s = .next t → t.status.ecode ≠ 0 → Failed t.status.ecode s t

/-- R132, R133, R134 (and R130, R138): the cause of each completion code, for operands that registers can hold.  DIV_ZERO:
a zero divisor of DIVQ or DIVR, or POWMOD with a nonzero exponent and a zero modulus.  SUB_UNDERFLOW: SUB with minuend
below subtrahend.  OVERFLOW: an ADD or MUL result that does not fit.  No other command and no other code. -/
def Obligations.ErrorCodeCauses : Prop :=
  ∀ (i : Instr) (s : State), 1 ≤ s.cfg.maxw → (s.operands i).a < 2 ^ (32 * s.cfg.maxw) →
    (s.operands i).b < 2 ^ (32 * s.cfg.maxw) → (s.operands i).c < 2 ^ (32 * s.cfg.maxw) →
    ∃ t, exec i s = .next t ∧
      (t.status.ecode = 2 ↔
        ((∃ d a b, i = .divq d a b ∨ i = .divr d a b) ∧ (s.operands i).b = 0) ∨
        ((∃ d a b c, i = .powmod d a b c) ∧ (s.operands i).b ≠ 0 ∧ (s.operands i).c = 0)) ∧
      (t.status.ecode = 3 ↔ (∃ d a b, i = .sub d a b) ∧ (s.operands i).a < (s.operands i).b) ∧
      (t.status.ecode = 4 ↔
        ((∃ d a b, i = .add d a b) ∧ 2 ^ (32 * s.cfg.maxw) ≤ (s.operands i).a + (s.operands i).b) ∨
        ((∃ d a b, i = .mul d a b) ∧ 2 ^ (32 * s.cfg.maxw) ≤ (s.operands i).a * (s.operands i).b)) ∧
      (t.status.ecode = 0 ∨ t.status.ecode = 2 ∨ t.status.ecode = 3 ∨ t.status.ecode = 4)

/-- R40, D22: the snapshot decides the result.  Two states with the same parameters and the same pending command complete
with the same code, the same destination words, Z and CY, whatever their registers hold by then. -/
def Obligations.SnapshotDecidesResult : Prop :=
  ∀ (s s' : State) (p : Pending), s.cfg = s'.cfg → s.pend = some p → s'.pend = some p → p.instr ≠ .nop →
    ∃ t t', exec p.instr s = .next t ∧ exec p.instr s' = .next t' ∧ t.status.ecode = t'.status.ecode ∧
      (t.status.ecode = 0 → ∀ r, p.instr.dest = some r →
        t.words r = t'.words r ∧ t.status.z = t'.status.z ∧ t.status.cy = t'.status.cy) ∧
      (p.instr.dest = none → t.status.cmp = t'.status.cmp)

/-- R57, R52: what a completion changes in the aperture: every aligned offset but STATUS reads as before, unless it is LEN,
BITLEN or the window and SEL selects the destination. -/
def Obligations.CompletionSeenThroughAperture : Prop :=
  ∀ (i : Instr) (s t : State) (off : Nat), exec i s = .next t → off ≠ 0x00C →
    (i.dest = some s.sel → off ≠ 0x018 ∧ off ≠ 0x01C ∧ (off < 0x800 ∨ 0x800 + 4 * s.cfg.maxw ≤ off)) →
    t.memRead off = s.memRead off

/-! ### Whole-machine rules about STATUS and the V registers -/

/-- R28: Z is written at the successful completion of ADD, SUB, MUL, DIVQ, DIVR and POWMOD as `Z <- (result = 0)`, and is
unchanged by NOP, by CMP and by any command that ends with an error.  Over all steps, Z changes only at such a completion or
at a reset. -/
def Obligations.ZeroFlagRule : Prop :=
  (∀ (i : Instr) (s : State), ∃ t, exec i s = .next t ∧
    (∀ r, i.dest = some r → t.status.ecode = 0 → (t.status.z = true ↔ t.value r = 0)) ∧
    (i.dest = none ∨ t.status.ecode ≠ 0 → t.status.z = s.status.z)) ∧
  (∀ (s t : State), step s = .next t → t.status.z ≠ s.status.z →
    s.events.head? = some .reset ∨
    ∃ p r, s.status.busy = true ∧ s.pend = some p ∧ p.instr.dest = some r ∧ t.status.ecode = 0 ∧
      (s.events = [] ∨ s.events.head? = some .engine))

/-- R29: CY after each command: for a successful ADD, 1 iff `len(result) > max(len(a), len(b))`; 0 after the other five that
write a register; unchanged by NOP, by CMP and by an error. -/
def Obligations.CarryFlagRule : Prop :=
  ∀ (i : Instr) (s : State), ∃ t, exec i s = .next t ∧
    (∀ d a b, i = .add d a b → t.status.ecode = 0 →
      (t.status.cy = true ↔ wordLen (t.value d) > max (wordLen (s.operands i).a) (wordLen (s.operands i).b))) ∧
    (∀ r, i.dest = some r → (∀ d a b, i ≠ .add d a b) → t.status.ecode = 0 → t.status.cy = false) ∧
    (i.dest = none ∨ t.status.ecode ≠ 0 → t.status.cy = s.status.cy)

/-- R30, over all steps: the engine's completion of a CMP command writes 0b00, 0b01 or 0b10 to STATUS.CMP as `a = b`, `a > b`
or `a < b`, and STATUS.CMP changes at no other step but a reset. -/
def Obligations.CmpFieldWrittenOnlyByCmp : Prop :=
  (∀ (s : State) (p : Pending) (ra rb : RegIdx), s.cfg.valid = true → s.status.busy = true → s.pend = some p →
    p.instr = .cmp ra rb → (s.events = [] ∨ s.events.head? = some .engine) →
    ∃ t, step s = .next t ∧
      t.status.cmp = (if p.ops.a = p.ops.b then 0b00 else if p.ops.a > p.ops.b then 0b01 else 0b10)) ∧
  (∀ (s t : State), step s = .next t → t.status.cmp ≠ s.status.cmp →
    s.events.head? = some .reset ∨
    ∃ p ra rb, s.status.busy = true ∧ s.pend = some p ∧ p.instr = .cmp ra rb ∧
      (s.events = [] ∨ s.events.head? = some .engine))

/-- R24, R36, R37, R39, R150, over all steps: a V register changes only at a reset, at the engine's successful completion of
a command whose destination it is, or, while BUSY = 0 and SEL selects it, at a host write to WIN[k] with `k < MAXW` or a
write with bit 0 = 1 to VCLR. -/
def Obligations.RegisterChangesOnlyByItsWriters : Prop :=
  ∀ (s t : State) (r : RegIdx), step s = .next t → t.words r ≠ s.words r →
    s.events.head? = some .reset ∨
    (∃ p, (s.events = [] ∨ s.events.head? = some .engine) ∧ s.status.busy = true ∧ s.pend = some p ∧
      p.instr.dest = some r ∧ t.status.ecode = 0) ∨
    (∃ k w, s.events.head? = some (wr s.cfg (0x800 + 4 * k) w) ∧ k < s.cfg.maxw ∧ s.status.busy = false ∧ s.sel = r) ∨
    (∃ w, s.events.head? = some (wr s.cfg 0x020 w) ∧ w.getLsbD 0 = true ∧ s.status.busy = false ∧ s.sel = r)

/-- R140, R142: the interrupt level: pending after any engine completion iff IE = 1, and gone after a write of 1 to
STATUS.DONE, a write of IE = 0, the acceptance of a command the engine runs, or a reset. -/
def Obligations.InterruptLevel : Prop :=
  (∀ s : State, s.irq = (s.ie && s.status.done)) ∧
  (∀ (s t : State) (i : Instr), exec i s = .next t → t.irq = s.ie) ∧
  (∀ (s : State) (w : Word) (es : List Event), s.cfg.valid = true → s.events = wr s.cfg 0x00C w :: es →
    w.getLsbD 1 = true → ∃ t, step s = .next t ∧ t.irq = false) ∧
  (∀ (s : State) (w : Word) (es : List Event), s.cfg.valid = true → s.events = wr s.cfg 0x010 w :: es →
    w.getLsbD 0 = false → ∃ t, step s = .next t ∧ t.irq = false) ∧
  (∀ (s : State) (w : Word) (i : Instr) (es : List Event), s.cfg.valid = true → s.status.busy = false →
    s.events = wr s.cfg 0x008 w :: es → decodeWord w = .ok i → i ≠ .nop → ∃ t, step s = .next t ∧ t.irq = false) ∧
  (∀ (s : State) (es : List Event), s.cfg.valid = true → s.events = .reset :: es → ∃ t, step s = .next t ∧ t.irq = false)

/-- R27: the bits of the STATUS word, and the effect of a write: each RW1C bit whose written bit is 1 is cleared and nothing
else changes, in any state. -/
def Obligations.StatusRegister : Prop :=
  (∀ x : Status,
    x.toWord.getLsbD 0 = x.busy ∧ x.toWord.getLsbD 1 = x.done ∧ x.toWord.getLsbD 2 = x.err ∧
    x.toWord.getLsbD 3 = false ∧ x.toWord.extractLsb' 4 4 = x.ecode ∧ x.toWord.getLsbD 8 = x.z ∧
    x.toWord.getLsbD 9 = x.cy ∧ x.toWord.extractLsb' 10 2 = x.cmp ∧ x.toWord.getLsbD 12 = x.cmdlost ∧
    x.toWord.getLsbD 13 = x.winlost ∧ x.toWord.extractLsb' 14 18 = 0) ∧
  (∀ (s : State) (w : Word) (es : List Event), s.cfg.valid = true → s.events = wr s.cfg 0x00C w :: es →
    ∃ t, step s = .next t ∧
      t = { s with status := t.status, events := es, reply := none } ∧
      t.status = { s.status with done := t.status.done, cmdlost := t.status.cmdlost, winlost := t.status.winlost } ∧
      (t.status.done = true ↔ s.status.done = true ∧ w.getLsbD 1 = false) ∧
      (t.status.cmdlost = true ↔ s.status.cmdlost = true ∧ w.getLsbD 12 = false) ∧
      (t.status.winlost = true ↔ s.status.winlost = true ∧ w.getLsbD 13 = false))

/-! ### The aperture (20_memory.md) -/

/-- R54: an aperture access that is not 4 bytes wide, or whose offset is no multiple of 4, is a fault of the host step; every
4-byte access at a multiple of 4 is answered. -/
def Obligations.OnlyAlignedWordAccesses : Prop :=
  ∀ (s : State) (op : BusOp) (off width : Nat) (es : List Event), s.cfg.valid = true → off < 4096 →
    s.events = .host ⟨op, s.cfg.base + off, width⟩ :: es →
    ((width ≠ 4 ∨ off % 4 ≠ 0) → step s = .fault (.busError ⟨op, s.cfg.base + off, width⟩)) ∧
    (width = 4 → off % 4 = 0 → ∃ t, step s = .next t)

/-- R57: a host read at a legal offset answers the value the register map gives and changes no state. -/
def Obligations.ReadsHaveNoSideEffect : Prop :=
  ∀ (s : State) (off : Nat) (es : List Event), s.cfg.valid = true → off < 4096 → off % 4 = 0 →
    s.events = rd s.cfg off :: es →
    step s = .next { s with events := es, reply := some (s.memRead off) }

/-- R31 to R37, R42, R52, R55: what every offset of the register map reads as. -/
def Obligations.RegisterMapReads : Prop :=
  ∀ s : State, s.cfg.valid = true → s.Sized →
    s.memRead 0x000 = 0x424E0001 ∧
    (s.memRead 0x004).extractLsb' 0 8 = 16 ∧ ((s.memRead 0x004).extractLsb' 8 12).toNat = s.cfg.maxw ∧
    (s.memRead 0x004).extractLsb' 20 12 = 0 ∧
    s.memRead 0x008 = s.cmdreg ∧ s.memRead 0x00C = s.status.toWord ∧
    s.memRead 0x010 = (if s.ie then 1 else 0) ∧ (s.memRead 0x014).toNat = s.sel.val ∧
    (s.memRead 0x018).toNat = wordLen (s.value s.sel) ∧ (s.memRead 0x01C).toNat = bitLen (s.value s.sel) ∧
    s.memRead 0x020 = 0 ∧
    (∀ off, 0x024 ≤ off → off < 0x800 → s.memRead off = 0) ∧
    (∀ k, k < s.cfg.maxw → s.memRead (0x800 + 4 * k) = (s.words s.sel).getD k 0) ∧
    (∀ k, s.cfg.maxw ≤ k → s.memRead (0x800 + 4 * k) = 0)

/-- R55: a write to a reserved offset, and one to ID, CONFIG, LEN or BITLEN, changes no state and sets no lost bit, BUSY or
not; a read of a reserved offset answers 0. -/
def Obligations.ReservedOffsetsIgnoreWrites : Prop :=
  (∀ (s : State) (off : Nat) (w : Word) (es : List Event), s.cfg.valid = true → off < 4096 → off % 4 = 0 →
    ((0x024 ≤ off ∧ off < 0x800) ∨ 0x800 + 4 * s.cfg.maxw ≤ off) → s.events = wr s.cfg off w :: es →
    step s = .next { s with events := es, reply := none }) ∧
  (∀ (s : State) (off : Nat) (es : List Event), s.cfg.valid = true → off < 4096 → off % 4 = 0 →
    ((0x024 ≤ off ∧ off < 0x800) ∨ 0x800 + 4 * s.cfg.maxw ≤ off) → s.events = rd s.cfg off :: es →
    step s = .next { s with events := es, reply := some 0 }) ∧
  (∀ (s : State) (off : Nat) (w : Word) (es : List Event), s.cfg.valid = true →
    (off = 0x000 ∨ off = 0x004 ∨ off = 0x018 ∨ off = 0x01C) → s.events = wr s.cfg off w :: es →
    step s = .next { s with events := es, reply := none })

/-- R36: while BUSY = 0 a write to WIN[k], `k < MAXW`, sets `W[SELIDX][k]` to the written word and changes nothing else, and
reading WIN[k] then gives it back; other window words and other registers are as before. -/
def Obligations.WindowWriteThenRead : Prop :=
  ∀ (s : State) (k : Nat) (w : Word) (es : List Event), s.cfg.valid = true → s.Sized → s.status.busy = false →
    k < s.cfg.maxw → s.events = wr s.cfg (0x800 + 4 * k) w :: es →
    ∃ t, step s = .next t ∧ t = { s with v := t.v, events := es, reply := none } ∧
      t.memRead (0x800 + 4 * k) = w ∧ t.word s.sel k = w ∧
      (∀ j, j ≠ k → t.word s.sel j = s.word s.sel j) ∧ (∀ r, r ≠ s.sel → t.words r = s.words r) ∧ t.Sized

/-- R37 whole: VCLR reads 0; a write to VCLR with bit 0 = 1 while BUSY = 0 sets every word of V[SELIDX] to 0 and changes nothing else; one with
bit 0 = 0 has no effect in any state; while BUSY = 1 it is dropped. -/
def Obligations.VclrClearsSelected : Prop :=
  ∀ (s : State) (w : Word) (es : List Event), s.cfg.valid = true → s.events = wr s.cfg 0x020 w :: es →
    s.memRead 0x020 = 0 ∧
    (w.getLsbD 0 = true → s.status.busy = false →
      ∃ t, step s = .next t ∧ t = { s with v := t.v, events := es, reply := none } ∧
        t.words s.sel = List.replicate s.cfg.maxw 0 ∧ t.value s.sel = 0 ∧ (∀ r, r ≠ s.sel → t.words r = s.words r)) ∧
    (w.getLsbD 0 = true → s.status.busy = true →
      step s = .next { s with status := { s.status with winlost := true }, events := es, reply := none }) ∧
    (w.getLsbD 0 = false → step s = .next { s with events := es, reply := none })

/-- R34, R42: SEL keeps the low four bits of the written word and CTRL its bit 0, in any state, and both read back with
every other bit 0. -/
def Obligations.SelAndCtrlAreWritable : Prop :=
  (∀ (s : State) (w : Word) (es : List Event), s.cfg.valid = true → s.events = wr s.cfg 0x014 w :: es →
    ∃ t, step s = .next t ∧ t = { s with sel := t.sel, events := es, reply := none } ∧ t.sel.val = w.toNat % 16 ∧
      t.memRead 0x014 = w &&& 0xF) ∧
  (∀ (s : State) (w : Word) (es : List Event), s.cfg.valid = true → s.events = wr s.cfg 0x010 w :: es →
    ∃ t, step s = .next t ∧ t = { s with ie := w.getLsbD 0, events := es, reply := none } ∧
      t.memRead 0x010 = w &&& 0x1)

/-- R56: the byte lanes of every bus word are little-endian, and WIN[0] is the least significant word of the selected
register's value. -/
def Obligations.ByteAndWordOrder : Prop :=
  (∀ (s : State) (off : Nat), off % 4 = 0 →
    (s.memRead off).toNat = (s.byteAt off).toNat + 2 ^ 8 * (s.byteAt (off + 1)).toNat
      + 2 ^ 16 * (s.byteAt (off + 2)).toNat + 2 ^ 24 * (s.byteAt (off + 3)).toNat) ∧
  (∀ s : State, s.Sized →
    s.value s.sel = val ((List.range s.cfg.maxw).map (fun k => s.memRead (0x800 + 4 * k))))

/-- R12, R13, R14: `bitlen(v)` is the least `k` with `v < 2^k`, `len(v)` the least `k` with `v < 2^(32·k)`, and `mag(v)` is the
list of `len(v)` words of value `v` whose most significant word is not 0. -/
def Obligations.LengthsAreLeast : Prop :=
  ∀ v : Nat, (bitLen v = 0 ↔ v = 0) ∧ v < 2 ^ bitLen v ∧ (∀ k, v < 2 ^ k → bitLen v ≤ k) ∧
    v < 2 ^ (32 * wordLen v) ∧ (∀ k, v < 2 ^ (32 * k) → wordLen v ≤ k) ∧
    wordLen v = (bitLen v + 31) / 32 ∧
    val (mag v) = v ∧ (mag v).length = wordLen v ∧ (v ≠ 0 → (mag v).getLastD 0 ≠ 0) ∧
    (∀ i, i < wordLen v → (mag v).getD i 0 = BitVec.ofNat 32 (v >>> (32 * i)))

/-- R84, R153: the host's `wrv i, n` on an idle BNCORE leaves `n` in V register `i`, every other register as it was and
STATUS unchanged. -/
def Obligations.WrvLoadsRegister : Prop :=
  ∀ (s : State) (i : RegIdx) (n : Nat), s.cfg.valid = true → s.Sized → s.status.busy = false →
    n < 2 ^ (32 * s.cfg.maxw) → s.events = wrv s.cfg i n →
    ∃ t, Host.Core.run core (wrv s.cfg i n).length s = .next t ∧ t.value i = n ∧ t.sel = i ∧
      (∀ r, r ≠ i → t.words r = s.words r) ∧ t.status = s.status ∧ t.events = []

/-- R83: `MODMUL vd, va, vb, vm`, issued as its expansion on an idle BNCORE, leaves `va·vb mod vm` in `vd` when the product
fits and the modulus is nonzero. -/
def Obligations.ModmulExpansionRuns : Prop :=
  ∀ (s : State) (vd va vb vm : RegIdx), s.cfg.valid = true → s.Sized → s.status.busy = false → s.pend = none →
    (Pseudo.modmul vd va vb vm).wf = true → s.value vm ≠ 0 → s.value va * s.value vb < 2 ^ (32 * s.cfg.maxw) →
    s.events = issue s.cfg (expandPseudo (.modmul vd va vb vm)) →
    ∃ t, Host.Core.run core 4 s = .next t ∧ t.value vd = s.value va * s.value vb % s.value vm ∧
      t.status.ecode = 0 ∧ t.status.busy = false ∧ ∀ r, r ≠ vd → t.words r = s.words r

/-! ### Reset, progress and the invariant -/

/-- R150, R151: a platform reset in any state, busy or not, leaves every piece of state at its reset value; nothing of a
pending command is written, and `irq` is 0. -/
def Obligations.ResetSetsEveryField : Prop :=
  ∀ (s : State) (es : List Event), s.cfg.valid = true → s.events = .reset :: es →
    ∃ t, step s = .next t ∧
      (∀ r : RegIdx, t.words r = List.replicate s.cfg.maxw 0 ∧ t.value r = 0) ∧
      t.cmdreg = 0x00000000 ∧ t.status.busy = false ∧ t.status.done = false ∧ t.status.err = false ∧
      t.status.ecode = 0 ∧ t.status.z = false ∧ t.status.cy = false ∧ t.status.cmp = 0b00 ∧
      t.status.cmdlost = false ∧ t.status.winlost = false ∧ t.ie = false ∧ t.irq = false ∧ t.sel = 0 ∧ t.pend = none ∧
      t.memRead 0x000 = 0x424E0001 ∧ t.memRead 0x004 = BitVec.ofNat 32 (16 + s.cfg.maxw * 2 ^ 8) ∧
      t.memRead 0x018 = 0 ∧ t.memRead 0x01C = 0

/-- R150, with R9's parameters: the invariant holds after reset, for every valid configuration. -/
def Obligations.ResetMeetsInvariant : Prop :=
  State.reset.Inv ∧ ∀ c : Config, c.valid = true → (State.resetWith c).Inv

/-- R22, R27, R30, R38, R39, R43, R130: every step keeps the invariant: registers of MAXW words, BUSY exactly while a command
is pending, the snapshot equal to the operand registers, DONE and ERR and ECODE clear while busy, CMP never 0b11, ERR iff
ECODE ≠ 0, and an idle ECODE one that the command in CMDREG can leave. -/
def Obligations.StepKeepsInvariant : Prop :=
  ∀ s t : State, s.Inv → step s = .next t → t.Inv

/-- R9, U15: no step changes the parameters, which State carries by the model's choice (log 1), and a machine whose
parameters are no BNCORE configuration is refused: MAXW outside 1 to 512 by U15, and a BASE that is not 4096-byte aligned by
the model's reading of R50 (DEDUCED, log 9). -/
def Obligations.ParametersAreFixed : Prop :=
  (∀ s t : State, step s = .next t → t.cfg = s.cfg) ∧
  (∀ s : State, s.cfg.valid = false → step s = .refused (.badConfiguration s.cfg))

/-- R54, R50: from a valid configuration the only steps without a next state are host accesses that are not 4 bytes wide,
not aligned, or outside the aperture. -/
def Obligations.OnlyBadAccessesStop : Prop :=
  ∀ s : State, s.cfg.valid = true →
    (∃ t, step s = .next t) ∨
    ∃ a es, s.events = .host a :: es ∧
      (a.addr < s.cfg.base ∨ s.cfg.base + 4096 ≤ a.addr ∨ a.width ≠ 4 ∨ (a.addr - s.cfg.base) % 4 ≠ 0)

/-- R163: an access that is safe while BUSY = 1 changes neither the pending command nor a V register, and the completion
after it writes the same registers, flags and code as the completion before it. -/
def Obligations.SafeAccessesDoNotDisturb : Prop :=
  ∀ (s : State) (p : Pending) (op : BusOp) (off : Nat) (es : List Event),
    s.cfg.valid = true → s.status.busy = true → s.pend = some p → off < 4096 → off % 4 = 0 →
    safeWhileBusy s.cfg.maxw off op = true → s.events = .host ⟨op, s.cfg.base + off, 4⟩ :: es →
    ∃ t, step s = .next t ∧ t.pend = s.pend ∧ t.v = s.v ∧ t.status.busy = true ∧ t.cmdreg = s.cmdreg ∧
      ∃ u u', exec p.instr s = .next u ∧ exec p.instr t = .next u' ∧ u'.v = u.v ∧ u'.status.z = u.status.z ∧
        u'.status.cy = u.status.cy ∧ u'.status.cmp = u.status.cmp ∧ u'.status.ecode = u.status.ecode

/-- R41, R62: progress.  A host that only reads while a command is pending sees it complete: after its reads and one more
step BUSY is 0 and DONE is 1, and the registers and STATUS are those of the command's completion.  That the engine goes
when no input is left is the model's form of fairness (log 3). -/
def Obligations.ReadingHostSeesCompletion : Prop :=
  ∀ (s : State) (p : Pending) (offs : List Nat),
    s.cfg.valid = true → s.status.busy = true → s.pend = some p → p.instr ≠ .nop →
    (∀ off ∈ offs, off < 4096 ∧ off % 4 = 0) → s.events = offs.map (rd s.cfg) →
    ∃ t u, Host.Core.run core (offs.length + 1) s = .next t ∧ exec p.instr s = .next u ∧ t.v = u.v ∧
      t.status = u.status ∧ t.status.busy = false ∧ t.status.done = true ∧ t.pend = none ∧ t.events = []

/-- R161: until the completion a read of the window gives the old word, and after it the new word. -/
def Obligations.OldWordUntilCompletion : Prop :=
  ∀ (s : State) (p : Pending) (k : Nat), s.cfg.valid = true → s.status.busy = true → s.pend = some p →
    p.instr ≠ .nop → p.instr.dest = some s.sel → k < s.cfg.maxw →
    s.events = [rd s.cfg (0x800 + 4 * k), .engine, rd s.cfg (0x800 + 4 * k)] →
    ∃ t u x, step s = .next t ∧ t.reply = some (s.word s.sel k) ∧ exec p.instr s = .next x ∧
      Host.Core.run core 3 s = .next u ∧ u.reply = some (x.word s.sel k)

/-! ### The datapaths compute the architectural values -/

/-- R93: the word-level adder gives the normalized words of `a + b`. -/
def Obligations.AdderDatapathComputesSum : Prop :=
  ∀ a b : Nat, adder a b = mag (a + b)

/-- R95: the word-level subtractor, run when `a >= b`, gives the normalized words of `a - b`. -/
def Obligations.SubtractorDatapathComputesDifference : Prop :=
  ∀ a b : Nat, b ≤ a → subtractor a b = mag (a - b)

/-- R97: the schoolbook multiplier gives the normalized words of `a * b`. -/
def Obligations.MultiplierDatapathComputesProduct : Prop :=
  ∀ a b : Nat, multiplier a b = mag (a * b)

/-- R99: comparing lengths and then words from the most significant down gives the code of R98. -/
def Obligations.ComparatorDatapathAgrees : Prop :=
  ∀ a b : Nat, comparator a b = if a = b then 0b00 else if a > b then 0b01 else 0b10

/-- R111: the single-word path gives the exact quotient and remainder for a divisor of one word. -/
def Obligations.SingleWordDivisionIsExact : Prop :=
  ∀ a b : Nat, wordLen b = 1 → divideSingle a b = (a / b, a % b)

/-- R112, R116: Knuth Algorithm D, with its digit estimate, correction and add-back, gives the exact quotient and remainder
for every divisor of two words or more.  The correction's bound of two is the model's (DEDUCED, log 11), and the correction
test, the borrow bookkeeping and the early exit are details that R112 itself marks as from general knowledge. -/
def Obligations.KnuthDivisionIsExact : Prop :=
  ∀ a b : Nat, 2 ≤ wordLen b → divideKnuth a b = (a / b, a % b)

/-- R110, R113, R116, R117: the engine gives the selected value for every nonzero divisor by whichever path, and nothing
for a zero divisor. -/
def Obligations.DivisionEngineIsExact : Prop :=
  ∀ (a b : Nat),
    (b ≠ 0 → divideEngine .quotient a b = some (a / b) ∧ divideEngine .remainder a b = some (a % b)) ∧
    (∀ mode, b = 0 → divideEngine mode a b = none)

/-- R120, R121, R122: the square-and-multiply datapath computes `(a ^ e) mod m` for every nonzero exponent and modulus, and
1 for the zero exponent whatever the modulus is. -/
def Obligations.PowModDatapathComputesPower : Prop :=
  ∀ a e m : Nat, (e ≠ 0 → m ≠ 0 → powMod a e m = a ^ e % m) ∧ powMod a 0 m = 1
end

