-- ==== Sys2Proof/Laws/Num.lean ====
section
/-! SUPPORT. Word lists and the naturals they stand for (00_scope.md R12 to R14). -/

namespace Sys2Proof.Machine

@[simp] theorem val_nil : val [] = 0 := rfl
@[simp] theorem val_cons (w : Word) (ws : List Word) : val (w :: ws) = w.toNat + radix * val ws := rfl

@[simp] theorem length_wordsOf (n v : Nat) : (wordsOf n v).length = n := by
  induction n generalizing v with
  | zero => rfl
  | succ n ih => simp [wordsOf, ih]

/-- R15: writing a natural as `n` words keeps it modulo `2^(32·n)`. -/
theorem val_wordsOf_mod (n v : Nat) : val (wordsOf n v) = v % 2 ^ (32 * n) := by
  induction n generalizing v with
  | zero => simp [wordsOf, Nat.mod_one]
  | succ n ih =>
    have h : 2 ^ (32 * (n + 1)) = radix * 2 ^ (32 * n) := by
      rw [Nat.mul_add, Nat.pow_add, Nat.mul_comm]
    rw [wordsOf, val_cons, ih, h, Nat.mod_mul, BitVec.toNat_ofNat]

/-- R15: writing a natural that fits loses nothing. -/
theorem val_wordsOf {n v : Nat} (h : v < 2 ^ (32 * n)) : val (wordsOf n v) = v := by
  rw [val_wordsOf_mod, Nat.mod_eq_of_lt h]

/-- R22: the value of `k` words is a natural below `2^(32·k)`. -/
theorem val_lt (ws : List Word) : val ws < 2 ^ (32 * ws.length) := by
  induction ws with
  | nil => simp
  | cons w ws ih =>
    have h : 2 ^ (32 * (ws.length + 1)) = radix * 2 ^ (32 * ws.length) := by
      rw [Nat.mul_add, Nat.pow_add, Nat.mul_comm]
    rw [val_cons, List.length_cons, h]
    have hw : w.toNat < radix := w.isLt
    calc w.toNat + radix * val ws < radix + radix * val ws := by omega
      _ = radix * (val ws + 1) := by rw [Nat.mul_add, Nat.mul_one, Nat.add_comm]
      _ ≤ radix * 2 ^ (32 * ws.length) := Nat.mul_le_mul_left _ ih

/-- Word `i` of the written words is `word_i(v)` (R12, R15). -/
theorem getD_wordsOf {n i : Nat} (v : Nat) (h : i < n) : (wordsOf n v).getD i 0 = wordAt v i := by
  induction n generalizing v i with
  | zero => omega
  | succ n ih =>
    cases i with
    | zero => simp [wordsOf, wordAt]
    | succ i =>
      have hi := ih (v / radix) (i := i) (by omega)
      rw [wordsOf, List.getD_cons_succ, hi, wordAt, wordAt, Nat.shiftRight_eq_div_pow, Nat.shiftRight_eq_div_pow,
        Nat.div_div_eq_div_mul, Nat.mul_add, Nat.pow_add, Nat.mul_comm]

theorem radix_eq : radix = 4294967296 := rfl
theorem shiftRight_word (t : Nat) : t >>> 32 = t / 4294967296 := Nat.shiftRight_eq_div_pow t 32
theorem toNat_lt (w : Word) : w.toNat < 4294967296 := w.isLt
theorem pow_words (n : Nat) : 2 ^ (32 * (n + 1)) = 4294967296 * 2 ^ (32 * n) := by
  rw [Nat.mul_add, Nat.pow_add, Nat.mul_comm]

/-- R15: a natural is below two to its bit length. -/
theorem lt_pow_bitLen (v : Nat) : v < 2 ^ bitLen v := by
  simp only [bitLen]
  split
  · next h => subst h; decide
  · exact Nat.lt_log2_self

/-- R15: the bit length is the least. -/
theorem bitLen_le_iff {v k : Nat} : bitLen v ≤ k ↔ v < 2 ^ k := by
  refine ⟨fun h => lt_of_lt_of_le (lt_pow_bitLen v) (Nat.pow_le_pow_right (by omega) h), fun h => ?_⟩
  simp only [bitLen]
  split
  · omega
  · next h0 => exact (Nat.log2_lt h0).2 h

/-- R15: the word length is the least. -/
theorem wordLen_le_iff {v k : Nat} : wordLen v ≤ k ↔ v < 2 ^ (32 * k) := by
  rw [← bitLen_le_iff]; simp only [wordLen]; omega

@[simp] theorem mag_zero : mag 0 = [] := rfl

/-- A nonzero natural has one word more than its quotient by the radix. -/
theorem wordLen_succ {v : Nat} (h : v ≠ 0) : wordLen v = wordLen (v / radix) + 1 := by
  have key : ∀ k, wordLen v ≤ k + 1 ↔ wordLen (v / radix) ≤ k := by
    intro k
    rw [wordLen_le_iff, wordLen_le_iff, pow_words, Nat.div_lt_iff_lt_mul (by decide), radix_eq, Nat.mul_comm]
  have h0 : ¬ wordLen v ≤ 0 := by rw [wordLen_le_iff]; simpa using h
  have h1 := (key (wordLen (v / radix))).2 le_rfl
  have h2 := (key (wordLen v - 1)).1 (by omega)
  omega

/-- R15: the words of a nonzero natural, low word first. -/
theorem mag_succ {v : Nat} (h : v ≠ 0) : mag v = BitVec.ofNat 32 v :: mag (v / radix) := by
  rw [mag, wordLen_succ h]; rfl

@[simp] theorem val_mag (v : Nat) : val (mag v) = v := val_wordsOf (wordLen_le_iff.1 le_rfl)
@[simp] theorem length_mag (v : Nat) : (mag v).length = wordLen v := length_wordsOf _ _

/-- R14: stripping the high zero words leaves the normalized words. -/
theorem strip_eq_mag (l : List Word) : strip l = mag (val l) := by
  induction l with
  | nil => rfl
  | cons w ws ih =>
    have hw := toNat_lt w
    have hd : val (w :: ws) / radix = val ws := by rw [val_cons, radix_eq]; omega
    have ho : BitVec.ofNat 32 (val (w :: ws)) = w := by
      apply BitVec.eq_of_toNat_eq; rw [val_cons, radix_eq, BitVec.toNat_ofNat]; omega
    by_cases hz : val ws = 0
    · simp only [strip, ih, hz, mag_zero]
      split
      · next h0 => subst h0; rw [val_cons, hz]; rfl
      · next h0 =>
        have : val (w :: ws) ≠ 0 := by
          rw [val_cons, hz]; intro h; apply h0; apply BitVec.eq_of_toNat_eq; simpa using h
        rw [mag_succ this, hd, ho, hz]; rfl
    · have : val (w :: ws) ≠ 0 := by rw [val_cons, radix_eq]; omega
      rw [mag_succ this, hd, ho]
      simp only [strip, ih]
      rw [mag_succ hz]

/-- A word list cut in two. -/
theorem val_take_drop (l : List Word) (k : Nat) (h : k ≤ l.length) :
    val l = val (l.take k) + 2 ^ (32 * k) * val (l.drop k) := by
  induction k generalizing l with
  | zero => simp
  | succ k ih =>
    cases l with
    | nil => simp at h
    | cons w ws =>
      rw [List.take_succ_cons, List.drop_succ_cons, val_cons, val_cons, ih ws (by simpa using h), pow_words, radix_eq, Nat.mul_add,
        Nat.mul_assoc, Nat.add_assoc]

end Sys2Proof.Machine
end

