-- ==== Sys2Proof/Laws/Divider.lean ====
section
/-! SUPPORT. The parts of the long-division engine, each with the value it computes (41_division.md R111, R112):
the single-word path, the digit estimate and its bounds, multiply and subtract, add back, one quotient position. -/

namespace Sys2Proof.Machine

/-- R111: the single-word path divides exactly. -/
theorem horner_spec (d : Nat) (hd : 0 < d) (hd' : d < 4294967296) (u : List Word) :
    val (horner d u).1 * d + (horner d u).2 = val u ∧ (horner d u).2 < d := by
  induction u with
  | nil => simp [horner, hd]
  | cons u us ih =>
    obtain ⟨h1, h2⟩ := ih
    have hu := toNat_lt u
    simp only [horner]
    generalize (horner d us).1 = q at *
    generalize (horner d us).2 = r at *
    simp only [val_cons, BitVec.toNat_ofNat, radix_eq]
    have hq : (r * 4294967296 + u.toNat) / d < 4294967296 := by
      rw [Nat.div_lt_iff_lt_mul hd]
      have : r + 1 ≤ d := h2
      nlinarith
    rw [Nat.mod_eq_of_lt hq, ← h1]
    have := Nat.div_add_mod (r * 4294967296 + u.toNat) d
    have h3 := Nat.mod_lt (r * 4294967296 + u.toNat) hd
    generalize (r * 4294967296 + u.toNat) / d = k at *
    generalize (r * 4294967296 + u.toNat) % d = m at *
    have e : d * k = k * d := Nat.mul_comm _ _
    refine ⟨?_, by omega⟩
    rw [Nat.add_mul, Nat.mul_assoc, Nat.mul_add]
    omega

/-- R112 (*2): the correction never takes the estimate under the digit, and its result passes the test on the top two divisor words. -/
theorem correctDigit_spec {v₁ v₂ u₂ num q : Nat} (hv₂ : v₂ < 4294967296)
    -- q is any lower bound that the test cannot pass under
    (hq : ∀ x, x * (v₁ * 4294967296 + v₂) > num * 4294967296 + u₂ → q < x)
    (k qhat rhat : Nat) (hk : 4294967296 ≤ rhat + k * v₁) (h1 : q ≤ qhat) (h2 : qhat < 4294967296) (h3 : num = qhat * v₁ + rhat) :
    q ≤ correctDigit v₁ v₂ u₂ k qhat rhat ∧ correctDigit v₁ v₂ u₂ k qhat rhat < 4294967296 ∧
      correctDigit v₁ v₂ u₂ k qhat rhat * (v₁ * 4294967296 + v₂) ≤ num * 4294967296 + u₂ := by
  have big : ∀ qh rh, qh < 4294967296 → 4294967296 ≤ rh → num = qh * v₁ + rh → qh * (v₁ * 4294967296 + v₂) ≤ num * 4294967296 + u₂ := by
    intro qh rh h1 h2 h3
    have : qh * v₂ ≤ 4294967295 * 4294967295 := Nat.mul_le_mul (by omega) (by omega)
    rw [h3, Nat.mul_add, ← Nat.mul_assoc]; nlinarith
  induction k generalizing qhat rhat with
  | zero =>
    exact ⟨h1, h2, big qhat rhat h2 (by simpa using hk) h3⟩
  | succ k ih =>
    simp only [correctDigit, radix_eq]
    split
    · next hc =>
      have hgt : qhat * (v₁ * 4294967296 + v₂) > num * 4294967296 + u₂ := by
        rw [h3, Nat.mul_add, ← Nat.mul_assoc]; omega
      have hlt := hq _ hgt
      have : (qhat - 1) * v₁ + v₁ = qhat * v₁ := by
        have : qhat = (qhat - 1) + 1 := by omega
        conv_rhs => rw [this, Nat.add_mul, Nat.one_mul]
      refine ih (qhat - 1) (rhat + v₁) ?_ (by omega) (by omega) (by omega)
      rw [Nat.add_mul] at hk; omega
    · next hc =>
      refine ⟨h1, h2, ?_⟩
      by_cases hr : rhat < 4294967296
      · have : ¬ qhat * v₂ > rhat * 4294967296 + u₂ := fun h => hc ⟨hr, h⟩
        rw [h3, Nat.mul_add, ← Nat.mul_assoc]; omega
      · exact big qhat rhat h2 (by omega) h3

/-- The arithmetic of the digit estimate: `V = V₂·P + V'` and `U = U₃·P + U'`, with the tails below `P`. -/
theorem digit_bounds {q P V₂ V' V U₃ U' U : Nat} (hP : V' < P) (hU' : U' < P) (hV : V = V₂ * P + V') (hU : U = U₃ * P + U')
    (hV₂ : 0 < V₂) (hq : q = U / V) :
    (∀ x, U₃ < x * V₂ → q < x) ∧ (∀ x, x ≤ V₂ + 1 → x * V₂ ≤ U₃ → x ≤ q + 1) := by
  have hVpos : 0 < V := by have : 0 < V₂ * P := Nat.mul_pos hV₂ (by omega); omega
  subst hq
  refine ⟨fun x hx => ?_, fun x hx hxu => ?_⟩
  · rw [Nat.div_lt_iff_lt_mul hVpos]
    have h1 : (U₃ + 1) * P ≤ x * V₂ * P := Nat.mul_le_mul_right _ hx
    have h2 : x * (V₂ * P) ≤ x * V := Nat.mul_le_mul_left _ (by omega)
    rw [Nat.add_mul, Nat.one_mul] at h1
    rw [← Nat.mul_assoc] at h2
    omega
  · by_cases h0 : x = 0
    · subst h0; exact Nat.zero_le _
    obtain ⟨y, rfl⟩ : ∃ y, x = y + 1 := ⟨x - 1, by omega⟩
    suffices y ≤ U / V by omega
    rw [Nat.le_div_iff_mul_le hVpos]
    have h1 : y * V ≤ y * ((V₂ + 1) * P) := Nat.mul_le_mul_left _ (by rw [Nat.add_mul, Nat.one_mul]; omega)
    have h2 : y * (V₂ + 1) * P ≤ U₃ * P := by
      refine Nat.mul_le_mul_right _ (le_trans ?_ hxu)
      rw [Nat.mul_add, Nat.add_mul]; omega
    rw [← Nat.mul_assoc] at h1
    omega

/-- R112: the estimate is the digit or one more than it, and is a word. -/
theorem estimateDigit_spec {v₁ v₂ u₀ u₁ u₂ P V' U' V U q : Nat} (hv₁ : 2147483648 ≤ v₁) (hv₁' : v₁ < 4294967296)
    (hv₂ : v₂ < 4294967296) (hu₁ : u₁ < 4294967296) (hu₂ : u₂ < 4294967296) (hV' : V' < P) (hU' : U' < P)
    (hV : V = (v₁ * 4294967296 + v₂) * P + V') (hU : U = ((u₀ * 4294967296 + u₁) * 4294967296 + u₂) * P + U')
    (hlt : U < V * 4294967296) (hq : q = U / V) :
    q ≤ estimateDigit v₁ v₂ u₀ u₁ u₂ ∧ estimateDigit v₁ v₂ u₀ u₁ u₂ ≤ q + 1 ∧ estimateDigit v₁ v₂ u₀ u₁ u₂ < 4294967296 := by
  obtain ⟨htest, hfin⟩ := digit_bounds hV' hU' hV hU (by omega) hq
  have hqb : q < 4294967296 := by
    have : 0 < V := by omega
    rw [hq, Nat.div_lt_iff_lt_mul this, Nat.mul_comm]; exact hlt
  obtain ⟨num, hnum⟩ : ∃ num, num = u₀ * 4294967296 + u₁ := ⟨_, rfl⟩
  rw [← hnum] at htest hfin
  have hspec : q ≤ estimateDigit v₁ v₂ u₀ u₁ u₂ ∧ estimateDigit v₁ v₂ u₀ u₁ u₂ < 4294967296 ∧
      estimateDigit v₁ v₂ u₀ u₁ u₂ * (v₁ * 4294967296 + v₂) ≤ num * 4294967296 + u₂ := by
    simp only [estimateDigit, radix_eq, ← hnum]
    by_cases h : v₁ ≤ u₀
    · rw [if_pos h]
      have : 4294967295 * v₁ ≤ num := by omega
      exact correctDigit_spec hv₂ htest 2 _ _ (by omega) (by omega) (by omega) (by omega)
    · rw [if_neg h]
      have hdm := Nat.div_add_mod num v₁
      have hlt' := Nat.mod_lt num (show 0 < v₁ by omega)
      have hd : num / v₁ < 4294967296 := by
        rw [Nat.div_lt_iff_lt_mul (by omega)]; omega
      rw [Nat.mul_comm] at hdm
      refine correctDigit_spec hv₂ htest 2 _ _ (by omega) ?_ hd hdm.symm
      rw [Nat.le_div_iff_mul_le (by omega)]
      by_contra hcon
      have h1 : q ≤ q := le_rfl
      have : num * 4294967296 + u₂ < q * (v₁ * 4294967296 + v₂) := by
        rw [Nat.mul_add, ← Nat.mul_assoc]; omega
      exact absurd (htest q this) (by omega)
  exact ⟨hspec.1, hfin _ (by omega) hspec.2.2, hspec.2.1⟩

theorem borrowOf_neg {t : Int} (h : t < 0) : borrowOf t = 1 := if_pos h

theorem borrowOf_nonneg {t : Int} (h : ¬ t < 0) : borrowOf t = 0 := if_neg h

theorem borrowOf_le (t : Int) : borrowOf t ≤ 1 := by unfold borrowOf; split <;> omega

/-- One word of the multiply and subtract step. -/
theorem word_sub (w : Word) (x b : Nat) (hx : x < 4294967296) (hb : b ≤ 1) :
    (BitVec.ofInt 32 ((w.toNat : Int) - x - b)).toNat + x + b = w.toNat + 4294967296 * borrowOf ((w.toNat : Int) - x - b) := by
  have hw := toNat_lt w
  rw [BitVec.toNat_ofInt]
  by_cases ht : (w.toNat : Int) - x - b < 0
  · rw [borrowOf_neg ht]; omega
  · rw [borrowOf_nonneg ht]; omega

/-- R112: multiply and subtract, the final borrow counted at the top of the window. -/
theorem mulSub_spec (q : Nat) (hq : q < 4294967296) (v u : List Word) (c b : Nat) (hl : u.length = v.length + 1)
    (hc : c < 4294967296) (hb : b ≤ 1) :
    (mulSub q v u c b).1.length = v.length + 1 ∧ (mulSub q v u c b).2 ≤ 1 ∧
      val (mulSub q v u c b).1 + q * val v + c + b = val u + (mulSub q v u c b).2 * 2 ^ (32 * (v.length + 1)) := by
  induction v generalizing u c b with
  | nil =>
    obtain ⟨w, rfl⟩ : ∃ w, u = [w] := List.length_eq_one_iff.1 hl
    have h := word_sub w c b hc hb
    refine ⟨rfl, borrowOf_le _, ?_⟩
    simp only [mulSub, List.headD_cons, val_cons, val_nil, List.length_nil]
    omega
  | cons v vs ih =>
    cases u with
    | nil => simp at hl
    | cons w ws =>
      have hv := toNat_lt v
      have hp : q * v.toNat ≤ 4294967295 * 4294967295 := Nat.mul_le_mul (by omega) (by omega)
      have hd := word_sub w ((q * v.toNat + c) % 4294967296) b (by omega) hb
      obtain ⟨h1, h2, h3⟩ := ih ws ((q * v.toNat + c) / 4294967296)
        (borrowOf ((w.toNat : Int) - (((q * v.toNat + c) % 4294967296 : Nat) : Int) - b)) (by simpa using hl) (by omega) (borrowOf_le _)
      simp only [mulSub, List.headD_cons, List.tail_cons, shiftRight_word, radix_eq]
      refine ⟨by rw [List.length_cons, h1]; rfl, h2, ?_⟩
      simp only [val_cons, radix_eq, List.length_cons, pow_words (vs.length + 1)]
      rw [Nat.mul_add q, Nat.mul_left_comm q, Nat.mul_left_comm _ 4294967296]
      omega

/-- R112 (*3): add back, the carry out of the top dropped. -/
theorem addBack_spec (v u : List Word) (c : Nat) (hl : u.length = v.length + 1) (hc : c ≤ 1) :
    (addBack v u c).length = v.length + 1 ∧ val (addBack v u c) = (val v + val u + c) % 2 ^ (32 * (v.length + 1)) := by
  induction v generalizing u c with
  | nil =>
    obtain ⟨w, rfl⟩ : ∃ w, u = [w] := List.length_eq_one_iff.1 hl
    simp [addBack]
  | cons v vs ih =>
    cases u with
    | nil => simp at hl
    | cons w ws =>
      have hw := toNat_lt w; have hv := toNat_lt v
      obtain ⟨h1, h2⟩ := ih ws ((w.toNat + v.toNat + c) / 4294967296) (by simpa using hl) (by omega)
      simp only [addBack, List.headD_cons, List.tail_cons, shiftRight_word, radix_eq]
      refine ⟨by simp [h1], ?_⟩
      simp only [val_cons, BitVec.toNat_ofNat, radix_eq, h2, List.length_cons, pow_words (vs.length + 1)]
      rw [Nat.mod_mul]
      have e : (v.toNat + 4294967296 * val vs + (w.toNat + 4294967296 * val ws) + c) / 4294967296 =
        val vs + val ws + (w.toNat + v.toNat + c) / 4294967296 := by omega
      rw [e]
      omega

/-- R112: one quotient position, under the normalization and the bound the loop keeps, gives the digit and the remainder. -/
theorem knuthStep_spec (vn w : List Word) (hn : 2 ≤ vn.length) (hw : w.length = vn.length + 1)
    (htop : 2147483648 ≤ (vn.getD (vn.length - 1) 0).toNat) (hlt : val w < val vn * 4294967296) :
    (knuthStep vn w).1.toNat = val w / val vn ∧ (knuthStep vn w).2.length = vn.length + 1 ∧
      val (knuthStep vn w).2 = val w % val vn := by
  obtain ⟨n, hn'⟩ : ∃ n, vn.length = n + 2 := ⟨vn.length - 2, by omega⟩
  have hV := val_take_drop vn n (by omega)
  have hU := val_take_drop w n (by omega)
  have hP : 2 ^ (32 * (vn.take n).length) = 2 ^ (32 * n) := by rw [List.length_take, Nat.min_eq_left (by omega)]
  have hP' : 2 ^ (32 * (w.take n).length) = 2 ^ (32 * n) := by rw [List.length_take, Nat.min_eq_left (by omega)]
  have hV' := val_lt (vn.take n)
  have hU' := val_lt (w.take n)
  rw [hP] at hV'; rw [hP'] at hU'
  have hdV : vn.drop n = [vn.getD n 0, vn.getD (n + 1) 0] := by
    rw [List.drop_eq_getElem_cons (by omega), List.drop_eq_getElem_cons (by omega), List.drop_eq_nil_of_le (by omega),
      List.getD_eq_getElem _ _ (by omega), List.getD_eq_getElem _ _ (by omega)]
  have hdU : w.drop n = [w.getD n 0, w.getD (n + 1) 0, w.getD (n + 2) 0] := by
    rw [List.drop_eq_getElem_cons (by omega), List.drop_eq_getElem_cons (by omega), List.drop_eq_getElem_cons (by omega),
      List.drop_eq_nil_of_le (by omega),
      List.getD_eq_getElem _ _ (by omega), List.getD_eq_getElem _ _ (by omega), List.getD_eq_getElem _ _ (by omega)]
  rw [hdV] at hV; rw [hdU] at hU
  have e1 : vn.length - 1 = n + 1 := by omega
  have e2 : vn.length - 2 = n := by omega
  rw [e1] at htop
  simp only [val_cons, val_nil, radix_eq] at hV hU
  have hV1 : val vn = ((vn.getD (n + 1) 0).toNat * 4294967296 + (vn.getD n 0).toNat) * 2 ^ (32 * n) + val (vn.take n) := by
    rw [hV, Nat.mul_comm (2 ^ (32 * n)), Nat.add_comm]; congr 2; omega
  have hU1 : val w = (((w.getD (n + 2) 0).toNat * 4294967296 + (w.getD (n + 1) 0).toNat) * 4294967296 + (w.getD n 0).toNat) *
      2 ^ (32 * n) + val (w.take n) := by
    rw [hU, Nat.mul_comm (2 ^ (32 * n)), Nat.add_comm]; congr 2; omega
  obtain ⟨hq1, hq2, hq3⟩ := estimateDigit_spec htop (toNat_lt _) (toNat_lt _) (toNat_lt _) (toNat_lt _) hV' hU' hV1 hU1 hlt rfl
  obtain ⟨qh, hqh⟩ : ∃ qh, qh = estimateDigit (vn.getD (n + 1) 0).toNat (vn.getD n 0).toNat (w.getD (n + 2) 0).toNat
      (w.getD (n + 1) 0).toNat (w.getD n 0).toNat := ⟨_, rfl⟩
  rw [← hqh] at hq1 hq2 hq3
  obtain ⟨hm1, hm2, hm3⟩ := mulSub_spec qh hq3 vn w 0 0 hw (by omega) (by omega)
  obtain ⟨ha1, ha2⟩ := addBack_spec vn (mulSub qh vn w 0 0).1 0 hm1 (by omega)
  have hVlt := val_lt vn
  have hUlt := val_lt w
  have hdm := Nat.div_add_mod (val w) (val vn)
  have hpos : 0 < val vn := by omega
  have hml := Nat.mod_lt (val w) hpos
  have hmlt := val_lt (mulSub qh vn w 0 0).1
  rw [hm1] at hmlt; rw [hw] at hUlt
  simp only [knuthStep]
  rw [e1, e2, hn', ← hqh]
  rw [hn'] at hm1 hm3 hUlt hVlt ha1 ha2 hmlt
  rw [pow_words] at hm3 hUlt ha2 hmlt
  obtain ⟨ms, hms⟩ : ∃ ms, ms = mulSub qh vn w 0 0 := ⟨_, rfl⟩
  rw [← hms] at hm1 hm2 hm3 ha1 ha2 hmlt
  rw [← hms]
  generalize 4294967296 * 2 ^ (32 * (n + 2)) = M at hm3 hUlt ha2 hmlt
  generalize val w / val vn = Q at hq1 hq2 hdm ⊢
  generalize val w % val vn = R at hml hdm ⊢
  rw [Nat.mul_comm] at hdm
  have hq : qh = Q ∨ qh = Q + 1 := by omega
  rcases hq with rfl | rfl
  · have hb : ms.2 = 0 := by
      rcases (by omega : ms.2 = 0 ∨ ms.2 = 1) with h | h
      · exact h
      · rw [h] at hm3; omega
    rw [hb, Nat.zero_mul] at hm3
    rw [hb, if_neg (by omega)]
    refine ⟨Nat.mod_eq_of_lt hq3, hm1, ?_⟩
    show val ms.1 = R
    omega
  · rw [Nat.add_mul, Nat.one_mul] at hm3
    have hb : ms.2 = 1 := by
      rcases (by omega : ms.2 = 0 ∨ ms.2 = 1) with h | h
      · rw [h] at hm3; omega
      · exact h
    rw [hb, Nat.one_mul] at hm3
    rw [hb, if_pos rfl]
    refine ⟨Nat.mod_eq_of_lt (by show Q + 1 - 1 < 4294967296; omega), ha1, ?_⟩
    show val (addBack vn ms.1 0) = R
    rw [ha2, show val vn + val ms.1 + 0 = R + M by omega, Nat.add_mod_right, Nat.mod_eq_of_lt (by omega)]

end Sys2Proof.Machine
end

