-- ==== Sys2Proof/Laws/State.lean ====
section
/-! SUPPORT. What each update of the state does to each of its fields, and what writing one V register does to each
register: the lemmas later proofs use instead of unfolding a record update. -/

namespace Sys2Proof.Machine

/-! ### `setWords`, and the three register writes over it -/

@[simp] theorem State.setWords_cfg (s : State) (r ws) : (s.setWords r ws).cfg = s.cfg := rfl
@[simp] theorem State.setWords_cmdreg (s : State) (r ws) : (s.setWords r ws).cmdreg = s.cmdreg := rfl
@[simp] theorem State.setWords_status (s : State) (r ws) : (s.setWords r ws).status = s.status := rfl
@[simp] theorem State.setWords_ie (s : State) (r ws) : (s.setWords r ws).ie = s.ie := rfl
@[simp] theorem State.setWords_sel (s : State) (r ws) : (s.setWords r ws).sel = s.sel := rfl
@[simp] theorem State.setWords_pend (s : State) (r ws) : (s.setWords r ws).pend = s.pend := rfl
@[simp] theorem State.setWords_events (s : State) (r ws) : (s.setWords r ws).events = s.events := rfl
@[simp] theorem State.setWords_reply (s : State) (r ws) : (s.setWords r ws).reply = s.reply := rfl

@[simp] theorem State.words_setWords_self (s : State) (r ws) : (s.setWords r ws).words r = ws := by
  simp [State.words, State.setWords]

theorem State.words_setWords_ne (s : State) {r r' : RegIdx} (ws) (h : r ≠ r') :
    (s.setWords r ws).words r' = s.words r' := by
  have : r.val ≠ r'.val := fun e => h (Fin.ext e)
  simp [State.words, State.setWords, this]

theorem State.words_setWords (s : State) (r r' : RegIdx) (ws) :
    (s.setWords r ws).words r' = if r = r' then ws else s.words r' := by
  split
  · next h => subst h; simp
  · next h => exact State.words_setWords_ne s ws h

/-! ### The three register writes -/

@[simp] theorem State.setValue_cfg (s : State) (r x) : (s.setValue r x).cfg = s.cfg := rfl
@[simp] theorem State.setValue_cmdreg (s : State) (r x) : (s.setValue r x).cmdreg = s.cmdreg := rfl
@[simp] theorem State.setValue_status (s : State) (r x) : (s.setValue r x).status = s.status := rfl
@[simp] theorem State.setValue_ie (s : State) (r x) : (s.setValue r x).ie = s.ie := rfl
@[simp] theorem State.setValue_sel (s : State) (r x) : (s.setValue r x).sel = s.sel := rfl
@[simp] theorem State.setValue_pend (s : State) (r x) : (s.setValue r x).pend = s.pend := rfl
@[simp] theorem State.setValue_events (s : State) (r x) : (s.setValue r x).events = s.events := rfl
@[simp] theorem State.setValue_reply (s : State) (r x) : (s.setValue r x).reply = s.reply := rfl
@[simp] theorem State.setWord_cfg (s : State) (r k w) : (s.setWord r k w).cfg = s.cfg := rfl
@[simp] theorem State.setWord_cmdreg (s : State) (r k w) : (s.setWord r k w).cmdreg = s.cmdreg := rfl
@[simp] theorem State.setWord_status (s : State) (r k w) : (s.setWord r k w).status = s.status := rfl
@[simp] theorem State.setWord_ie (s : State) (r k w) : (s.setWord r k w).ie = s.ie := rfl
@[simp] theorem State.setWord_sel (s : State) (r k w) : (s.setWord r k w).sel = s.sel := rfl
@[simp] theorem State.setWord_pend (s : State) (r k w) : (s.setWord r k w).pend = s.pend := rfl
@[simp] theorem State.setWord_events (s : State) (r k w) : (s.setWord r k w).events = s.events := rfl
@[simp] theorem State.setWord_reply (s : State) (r k w) : (s.setWord r k w).reply = s.reply := rfl
@[simp] theorem State.clearReg_cfg (s : State) (r) : (s.clearReg r).cfg = s.cfg := rfl
@[simp] theorem State.clearReg_cmdreg (s : State) (r) : (s.clearReg r).cmdreg = s.cmdreg := rfl
@[simp] theorem State.clearReg_status (s : State) (r) : (s.clearReg r).status = s.status := rfl
@[simp] theorem State.clearReg_ie (s : State) (r) : (s.clearReg r).ie = s.ie := rfl
@[simp] theorem State.clearReg_sel (s : State) (r) : (s.clearReg r).sel = s.sel := rfl
@[simp] theorem State.clearReg_pend (s : State) (r) : (s.clearReg r).pend = s.pend := rfl
@[simp] theorem State.clearReg_events (s : State) (r) : (s.clearReg r).events = s.events := rfl
@[simp] theorem State.clearReg_reply (s : State) (r) : (s.clearReg r).reply = s.reply := rfl

/-- Reading the words of a register depends on the register file alone. -/
theorem State.words_congr {s t : State} (h : t.v = s.v) (r : RegIdx) : t.words r = s.words r := by
  simp [State.words, h]

/-! ### `close` and `raise` -/

@[simp] theorem State.close_cfg (s : State) (e c) : (s.close e c).cfg = s.cfg := rfl
@[simp] theorem State.close_v (s : State) (e c) : (s.close e c).v = s.v := rfl
@[simp] theorem State.close_cmdreg (s : State) (e c) : (s.close e c).cmdreg = s.cmdreg := rfl
@[simp] theorem State.close_ie (s : State) (e c) : (s.close e c).ie = s.ie := rfl
@[simp] theorem State.close_sel (s : State) (e c) : (s.close e c).sel = s.sel := rfl
@[simp] theorem State.close_pend (s : State) (e c) : (s.close e c).pend = none := rfl
@[simp] theorem State.close_events (s : State) (e c) : (s.close e c).events = s.events := rfl
@[simp] theorem State.close_reply (s : State) (e c) : (s.close e c).reply = s.reply := rfl
@[simp] theorem State.close_busy (s : State) (e c) : (s.close e c).status.busy = false := rfl
@[simp] theorem State.close_done (s : State) (e c) : (s.close e c).status.done = true := rfl
@[simp] theorem State.close_err (s : State) (e c) : (s.close e c).status.err = e := rfl
@[simp] theorem State.close_ecode (s : State) (e c) : (s.close e c).status.ecode = c := rfl
@[simp] theorem State.close_z (s : State) (e c) : (s.close e c).status.z = s.status.z := rfl
@[simp] theorem State.close_cy (s : State) (e c) : (s.close e c).status.cy = s.status.cy := rfl
@[simp] theorem State.close_cmp (s : State) (e c) : (s.close e c).status.cmp = s.status.cmp := rfl
@[simp] theorem State.close_cmdlost (s : State) (e c) : (s.close e c).status.cmdlost = s.status.cmdlost := rfl
@[simp] theorem State.close_winlost (s : State) (e c) : (s.close e c).status.winlost = s.status.winlost := rfl
@[simp] theorem State.close_words (s : State) (e c r) : (s.close e c).words r = s.words r := rfl

/-! ### Acceptance -/

@[simp] theorem State.beginCommand_cfg (s : State) (w) : (s.beginCommand w).cfg = s.cfg := rfl
@[simp] theorem State.beginCommand_v (s : State) (w) : (s.beginCommand w).v = s.v := rfl
@[simp] theorem State.beginCommand_cmdreg (s : State) (w) : (s.beginCommand w).cmdreg = w := rfl
@[simp] theorem State.beginCommand_ie (s : State) (w) : (s.beginCommand w).ie = s.ie := rfl
@[simp] theorem State.beginCommand_sel (s : State) (w) : (s.beginCommand w).sel = s.sel := rfl
@[simp] theorem State.beginCommand_pend (s : State) (w) : (s.beginCommand w).pend = s.pend := rfl
@[simp] theorem State.beginCommand_events (s : State) (w) : (s.beginCommand w).events = s.events := rfl
@[simp] theorem State.beginCommand_reply (s : State) (w) : (s.beginCommand w).reply = s.reply := rfl
@[simp] theorem State.beginCommand_busy (s : State) (w) : (s.beginCommand w).status.busy = s.status.busy := rfl
@[simp] theorem State.beginCommand_done (s : State) (w) : (s.beginCommand w).status.done = false := rfl
@[simp] theorem State.beginCommand_err (s : State) (w) : (s.beginCommand w).status.err = false := rfl
@[simp] theorem State.beginCommand_ecode (s : State) (w) : (s.beginCommand w).status.ecode = 0 := rfl
@[simp] theorem State.beginCommand_z (s : State) (w) : (s.beginCommand w).status.z = s.status.z := rfl
@[simp] theorem State.beginCommand_cy (s : State) (w) : (s.beginCommand w).status.cy = s.status.cy := rfl
@[simp] theorem State.beginCommand_cmp (s : State) (w) : (s.beginCommand w).status.cmp = s.status.cmp := rfl
@[simp] theorem State.beginCommand_cmdlost (s : State) (w) : (s.beginCommand w).status.cmdlost = s.status.cmdlost := rfl
@[simp] theorem State.beginCommand_winlost (s : State) (w) : (s.beginCommand w).status.winlost = s.status.winlost := rfl
@[simp] theorem State.beginCommand_words (s : State) (w r) : (s.beginCommand w).words r = s.words r := rfl
@[simp] theorem State.beginCommand_value (s : State) (w r) : (s.beginCommand w).value r = s.value r := rfl
@[simp] theorem State.beginCommand_capture (s : State) (w i) : (s.beginCommand w).capture i = s.capture i := rfl

@[simp] theorem State.enqueue_cfg (s : State) (i) : (s.enqueue i).cfg = s.cfg := rfl
@[simp] theorem State.enqueue_v (s : State) (i) : (s.enqueue i).v = s.v := rfl
@[simp] theorem State.enqueue_cmdreg (s : State) (i) : (s.enqueue i).cmdreg = s.cmdreg := rfl
@[simp] theorem State.enqueue_ie (s : State) (i) : (s.enqueue i).ie = s.ie := rfl
@[simp] theorem State.enqueue_sel (s : State) (i) : (s.enqueue i).sel = s.sel := rfl
@[simp] theorem State.enqueue_pend (s : State) (i) : (s.enqueue i).pend = some ⟨i, s.capture i⟩ := rfl
@[simp] theorem State.enqueue_events (s : State) (i) : (s.enqueue i).events = s.events := rfl
@[simp] theorem State.enqueue_reply (s : State) (i) : (s.enqueue i).reply = s.reply := rfl
@[simp] theorem State.enqueue_busy (s : State) (i) : (s.enqueue i).status.busy = true := rfl
@[simp] theorem State.enqueue_done (s : State) (i) : (s.enqueue i).status.done = s.status.done := rfl
@[simp] theorem State.enqueue_err (s : State) (i) : (s.enqueue i).status.err = s.status.err := rfl
@[simp] theorem State.enqueue_ecode (s : State) (i) : (s.enqueue i).status.ecode = s.status.ecode := rfl
@[simp] theorem State.enqueue_z (s : State) (i) : (s.enqueue i).status.z = s.status.z := rfl
@[simp] theorem State.enqueue_cy (s : State) (i) : (s.enqueue i).status.cy = s.status.cy := rfl
@[simp] theorem State.enqueue_cmp (s : State) (i) : (s.enqueue i).status.cmp = s.status.cmp := rfl
@[simp] theorem State.enqueue_cmdlost (s : State) (i) : (s.enqueue i).status.cmdlost = s.status.cmdlost := rfl
@[simp] theorem State.enqueue_winlost (s : State) (i) : (s.enqueue i).status.winlost = s.status.winlost := rfl
@[simp] theorem State.enqueue_words (s : State) (i r) : (s.enqueue i).words r = s.words r := rfl

/-- Every error code of R130 is nonzero, so ERR agrees with ECODE. -/
@[simp] theorem CmdError.code_ne_zero (e : CmdError) : e.code ≠ 0#4 := by cases e <;> decide

end Sys2Proof.Machine
end

