-- ==== Sys2Proof/Laws/Ops.lean ====
section
/-! SUPPORT. One lemma for each shared operation, saying everything it does: the result check, the three ends of a
completion, the register writes. -/

namespace Sys2Proof.Machine

/-! ### The result check (R91) -/

theorem finish_fits {maxw x : Nat} (rd cy) (h : x < 2 ^ (32 * maxw)) : finish maxw rd x cy = .wrote rd x cy := by
  simp [finish, h]

theorem finish_overflows {maxw x : Nat} (rd cy) (h : 2 ^ (32 * maxw) ≤ x) : finish maxw rd x cy = .failed .overflow := by
  simp [finish, h]

/-- R91: the result check either writes the exact value, which fits, or reports OVERFLOW. -/
theorem finish_cases (maxw : Nat) (rd : RegIdx) (x : Nat) (cy : Bool) :
    (x < 2 ^ (32 * maxw) ∧ finish maxw rd x cy = .wrote rd x cy) ∨
      (2 ^ (32 * maxw) ≤ x ∧ finish maxw rd x cy = .failed .overflow) := by
  rcases Nat.lt_or_ge x (2 ^ (32 * maxw)) with h | h
  · exact .inl ⟨h, finish_fits rd cy h⟩
  · exact .inr ⟨h, finish_overflows rd cy h⟩

/-! ### Completions (R40) -/

/-- R40, R24, R28, R29: a completion that writes a value that fits. -/
theorem complete_wrote (s : State) (rd : RegIdx) {x : Nat} (cy : Bool) (h : x < 2 ^ (32 * s.cfg.maxw)) :
    Wrote rd x (zeroFlag x) cy s (s.complete (.wrote rd x cy)) where
  value := by simpa [State.complete, State.value, State.setValue, State.close, State.words, State.setWords] using val_wordsOf h
  words := by simp [State.complete, State.setValue, State.close, State.words, State.setWords]
  zflag := rfl
  cyflag := rfl
  cmp := rfl
  completed := ⟨rfl, rfl, rfl, rfl, rfl⟩
  frame :=
    { regs := fun r hr => State.words_setWords_ne s _ (fun e => hr (congrArg some e))
      cmdreg := rfl, ie := rfl, sel := rfl, cmdlost := rfl, winlost := rfl, cfg := rfl, events := rfl, reply := rfl }

/-- R135: the completion that reports an error. -/
theorem complete_failed (s : State) (e : CmdError) : Failed e.code s (s.complete (.failed e)) where
  zflag := rfl
  cyflag := rfl
  cmp := rfl
  completed := ⟨rfl, rfl, by simp [State.complete, State.raise], rfl, rfl⟩
  frame :=
    { regs := fun _ _ => rfl
      cmdreg := rfl, ie := rfl, sel := rfl, cmdlost := rfl, winlost := rfl, cfg := rfl, events := rfl, reply := rfl }

/-- R130, R135: an error completion never leaves code 0. -/
theorem complete_failed_ecode_ne_zero (s : State) (e : CmdError) : (s.complete (.failed e)).status.ecode ≠ 0 :=
  e.code_ne_zero

/-- R98: the completion that writes the comparison code and nothing else. -/
theorem complete_compared (s : State) (code : BitVec 2) :
    s.complete (.compared code) =
      { s with
        status := { s.status with busy := false, done := true, err := false, ecode := 0, cmp := code }
        pend := none } := rfl

/-! ### Register writes keep every register `MAXW` words long (R22) -/

theorem State.Sized.setWords {s : State} (h : s.Sized) (r : RegIdx) {ws : List Word} (hl : ws.length = s.cfg.maxw) :
    (s.setWords r ws).Sized := by
  intro r'
  rw [State.words_setWords]
  split
  · exact hl
  · exact h r'

theorem State.Sized.setValue {s : State} (h : s.Sized) (r : RegIdx) (x : Nat) : (s.setValue r x).Sized :=
  h.setWords r (length_wordsOf _ _)

theorem State.Sized.setWord {s : State} (h : s.Sized) (r : RegIdx) (k : Nat) (w : Word) : (s.setWord r k w).Sized :=
  h.setWords r (by rw [List.length_set]; exact h r)

theorem State.Sized.clearReg {s : State} (h : s.Sized) (r : RegIdx) : (s.clearReg r).Sized :=
  h.setWords r List.length_replicate

/-- R22: in a sized state every register's value is below `2^(32·MAXW)`. -/
theorem State.Sized.value_lt {s : State} (h : s.Sized) (r : RegIdx) : s.value r < 2 ^ (32 * s.cfg.maxw) := by
  have := val_lt (s.words r)
  rwa [h r] at this

theorem resetWith_words (c : Config) (r : RegIdx) : (State.resetWith c).words r = List.replicate c.maxw 0 := by
  simp [State.words, State.resetWith]

theorem resetWith_sized (c : Config) : (State.resetWith c).Sized := by
  intro r
  rw [resetWith_words, List.length_replicate]
  rfl

end Sys2Proof.Machine
end

