-- ==== Sys2Proof/Laws/Exec.lean ====
section
/-! SUPPORT. The meaning of every command in one form: the completion with the command's result on its operands, and the
three shapes a result can have.  Laws about all commands are proved from these two, without unfolding a meaning. -/

namespace Sys2Proof.Machine

/-- The result of a command on its operands (R92, R94, R96, R98, R114, R115, R122).  NOP has none; its arm is not used. -/
def resultOf (i : Instr) (maxw : Nat) (o : Snapshot) : CmdResult :=
  match i with
  | .nop => .compared 0
  | .add rd _ _ => finish maxw rd (o.a + o.b) (carryFlag o.a o.b)
  | .sub rd _ _ => if o.a < o.b then .failed .subUnderflow else finish maxw rd (o.a - o.b) false
  | .mul rd _ _ => finish maxw rd (o.a * o.b) false
  | .divq rd _ _ => if o.b = 0 then .failed .divZero else finish maxw rd (o.a / o.b) false
  | .divr rd _ _ => if o.b = 0 then .failed .divZero else finish maxw rd (o.a % o.b) false
  | .powmod rd _ _ _ =>
    if o.b = 0 then finish maxw rd 1 false
    else if o.c = 0 then .failed .divZero
    else finish maxw rd (powMod o.a o.b o.c) false
  | .cmp _ _ => .compared (cmpCode o.a o.b)

/-- Every command but NOP is the completion (R40) with its result. -/
theorem exec_eq_complete {i : Instr} (s : State) (h : i ≠ .nop) :
    exec i s = .next (s.complete (resultOf i s.cfg.maxw (s.operands i))) := by
  cases i <;> first | rfl | exact absurd rfl h

theorem finish_shape (maxw : Nat) (rd : RegIdx) (x : Nat) (cy : Bool) :
    (∃ y c, y < 2 ^ (32 * maxw) ∧ finish maxw rd x cy = .wrote rd y c) ∨ ∃ e, finish maxw rd x cy = .failed e := by
  rcases finish_cases maxw rd x cy with ⟨h, e⟩ | ⟨_, e⟩
  · exact .inl ⟨x, cy, h, e⟩
  · exact .inr ⟨_, e⟩

/-- A command's result is a value for its destination that fits in `MAXW` words, an error, or a comparison code of a
command without destination. -/
theorem resultOf_cases (i : Instr) (maxw : Nat) (o : Snapshot) :
    (∃ r x c, i.dest = some r ∧ x < 2 ^ (32 * maxw) ∧ resultOf i maxw o = .wrote r x c) ∨
      (∃ e, resultOf i maxw o = .failed e) ∨ (i.dest = none ∧ ∃ c, resultOf i maxw o = .compared c) := by
  have shape (rd : RegIdx) (x : Nat) (cy : Bool) :
      (∃ r y c, some rd = some r ∧ y < 2 ^ (32 * maxw) ∧ finish maxw rd x cy = .wrote r y c) ∨
        (∃ e, finish maxw rd x cy = .failed e) ∨ (some rd = none ∧ ∃ c, finish maxw rd x cy = .compared c) := by
    rcases finish_shape maxw rd x cy with ⟨y, c, h, e⟩ | h
    · exact .inl ⟨rd, y, c, rfl, h, e⟩
    · exact .inr (.inl h)
  cases i with
  | nop => exact .inr (.inr ⟨rfl, _, rfl⟩)
  | cmp => exact .inr (.inr ⟨rfl, _, rfl⟩)
  | add => exact shape _ _ _
  | mul => exact shape _ _ _
  | sub =>
    simp only [resultOf]
    split
    · exact .inr (.inl ⟨_, rfl⟩)
    · exact shape _ _ _
  | divq =>
    simp only [resultOf]
    split
    · exact .inr (.inl ⟨_, rfl⟩)
    · exact shape _ _ _
  | divr =>
    simp only [resultOf]
    split
    · exact .inr (.inl ⟨_, rfl⟩)
    · exact shape _ _ _
  | powmod =>
    simp only [resultOf]
    split
    · exact shape _ _ _
    · split
      · exact .inr (.inl ⟨_, rfl⟩)
      · exact shape _ _ _

end Sys2Proof.Machine
end

