-- ==== Sys2Proof/Laws/Kernels.lean ====
section
/-! SUPPORT. What one pass of each arithmetic datapath adds up to, on whole word lists (40_arith_kernels.md R93, R95, R97). -/

namespace Sys2Proof.Machine

/-- R93: the carry chain, with its final carry word, computes the exact sum. -/
theorem val_addCarry (x y : List Word) (c : Nat) (hl : y.length ≤ x.length) (hc : c ≤ 1) :
    val (addCarry x y c) = val x + val y + c := by
  induction x generalizing y c with
  | nil =>
    cases y with
    | nil => simp only [addCarry]; split <;> simp_all; omega
    | cons => simp at hl
  | cons w ws ih =>
    have hw := toNat_lt w
    cases y with
    | nil =>
      simp only [addCarry, val_cons, shiftRight_word, val_nil, BitVec.toNat_ofNat, radix_eq]
      rw [ih [] _ (by simp) (by omega)]
      simp only [val_nil]
      omega
    | cons y ys =>
      have hy := toNat_lt y
      simp only [addCarry, val_cons, shiftRight_word, BitVec.toNat_ofNat, radix_eq]
      rw [ih ys _ (by simpa using hl) (by omega)]
      omega

@[simp] theorem val_strip (l : List Word) : val (strip l) = val l := by
  induction l with
  | nil => rfl
  | cons w ws ih =>
    simp only [strip]
    split
    · next h =>
      rw [h] at ih
      split
      · next hw => rw [val_cons, ← ih, hw]; rfl
      · rw [val_cons, val_cons, ih]
    · next h t heq => rw [heq] at ih; rw [val_cons w ws, val_cons w, ih]

/-- The borrow chain keeps the number of words. -/
theorem length_subBorrow (x y : List Word) (br : Int) : (subBorrow x y br).length = x.length := by
  induction x generalizing y br with
  | nil => rfl
  | cons w ws ih => simp only [subBorrow]; split <;> simp only [List.length_cons, ih]

/-- A word list by its low word and the rest, the empty list included. -/
theorem val_headD_tail (l : List Word) : val l = (l.headD 0).toNat + 4294967296 * val l.tail := by
  cases l <;> rfl

/-- R95: the borrow chain computes the exact difference where there is one. -/
theorem val_subBorrow (x y : List Word) (br : Nat) (hl : y.length ≤ x.length) (hb : br ≤ 1) :
    ∃ b ≤ 1, val (subBorrow x y br) + val y + br = val x + b * 2 ^ (32 * x.length) := by
  induction x generalizing y br with
  | nil =>
    cases y with
    | nil => exact ⟨br, hb, by simp [subBorrow]⟩
    | cons => simp at hl
  | cons w ws ih =>
    have hw := toNat_lt w
    have hy := toNat_lt (y.headD 0)
    have hl' : y.tail.length ≤ ws.length := by simp at hl ⊢; omega
    rw [val_headD_tail y]
    simp only [subBorrow, List.length_cons, pow_words]
    split
    · next ht =>
      obtain ⟨b, hb', e⟩ := ih y.tail 1 hl' (by omega)
      refine ⟨b, hb', ?_⟩
      simp only [val_cons, BitVec.toNat_ofNat, radix_eq]
      simp only [Nat.cast_one] at e
      rw [Nat.mul_left_comm]
      omega
    · next ht =>
      obtain ⟨b, hb', e⟩ := ih y.tail 0 hl' (by omega)
      refine ⟨b, hb', ?_⟩
      simp only [val_cons, BitVec.toNat_ofNat, radix_eq]
      simp only [Nat.cast_zero] at e
      rw [Nat.mul_left_comm]
      omega

/-- R97: one row of the multiplier adds `x * y` into its words. -/
theorem val_mulRow (x : Word) (y z : List Word) (c : Nat) (hl : y.length < z.length) (hc : c < 4294967296)
    (hz : ∀ k, y.length ≤ k → z.getD k 0 = 0) :
    val (mulRow x y z c) = x.toNat * val y + val z + c ∧ (mulRow x y z c).length = z.length ∧
      ∀ k, y.length < k → (mulRow x y z c).getD k 0 = 0 := by
  induction y generalizing z c with
  | nil =>
    cases z with
    | nil => simp at hl
    | cons z zs =>
      have : z = 0 := by simpa using hz 0 (by simp)
      subst this
      refine ⟨?_, rfl, ?_⟩
      · simp only [mulRow, List.tail_cons, val_cons, BitVec.toNat_ofNat, val_nil, radix_eq]
        show c % 4294967296 + _ = 0 + (0 + _) + c
        omega
      · intro k hk
        cases k with
        | zero => omega
        | succ k => simpa [mulRow] using hz (k + 1) (by simp)
  | cons y ys ih =>
    cases z with
    | nil => simp at hl
    | cons z zs =>
      have hx := toNat_lt x; have hy := toNat_lt y; have hz' := toNat_lt z
      have hp : x.toNat * y.toNat ≤ 4294967295 * 4294967295 := Nat.mul_le_mul (by omega) (by omega)
      obtain ⟨h1, h2, h3⟩ := ih zs ((x.toNat * y.toNat + z.toNat + c) / 4294967296) (by simpa using hl) (by omega)
        (fun k hk => by simpa using hz (k + 1) (by simpa using hk))
      refine ⟨?_, ?_, ?_⟩
      · simp only [mulRow, List.headD_cons, List.tail_cons, shiftRight_word, val_cons, BitVec.toNat_ofNat, radix_eq, h1]
        rw [Nat.mul_add x.toNat, Nat.mul_left_comm x.toNat]
        omega
      · simp only [mulRow, List.headD_cons, List.tail_cons, shiftRight_word, List.length_cons, h2]
      · intro k hk
        cases k with
        | zero => omega
        | succ k => simpa [mulRow, shiftRight_word] using h3 k (by simpa using hk)

/-- R97: the rows add the whole product into a zeroed destination. -/
theorem val_mulRows (x y z : List Word) (hl : z.length = x.length + y.length) (hz : ∀ k, y.length ≤ k → z.getD k 0 = 0) :
    val (mulRows x y z) = val x * val y + val z := by
  induction x generalizing z with
  | nil => simp [mulRows]
  | cons x xs ih =>
    obtain ⟨h1, h2, h3⟩ := val_mulRow x y z 0 (by simp at hl; omega) (by omega) hz
    simp only [mulRows]
    cases hr : mulRow x y z 0 with
    | nil => rw [hr] at h2; simp at h2 hl; omega
    | cons r rs =>
      rw [hr] at h1 h2 h3
      have := ih rs (by simp at h2 hl; omega) (fun k hk => by simpa using h3 (k + 1) (by omega))
      simp only [val_cons, this, radix_eq] at h1 ⊢
      rw [Nat.add_mul, Nat.mul_assoc]
      omega

end Sys2Proof.Machine
end

