-- ==== Sys2Proof/Laws/PerInstr.lean ====
section
/-! SUPPORT. Per-instruction laws of the encoding: the word of each command matches its row of 30_encoding.md R74. -/

namespace Sys2Proof.Laws.Row

/-- The row of R74 a command belongs to. -/
def rowOf : Instr → Row
  | .nop            => ⟨.nop,    0x00000000, 0xFFFFFFFF⟩
  | .add _ _ _      => ⟨.add,    0x00000001, 0xFFFF000F⟩
  | .sub _ _ _      => ⟨.sub,    0x00000002, 0xFFFF000F⟩
  | .mul _ _ _      => ⟨.mul,    0x00000003, 0xFFFF000F⟩
  | .divq _ _ _     => ⟨.divq,   0x00000004, 0xFFFF000F⟩
  | .divr _ _ _     => ⟨.divr,   0x00100004, 0xFFFF000F⟩
  | .powmod _ _ _ _ => ⟨.powmod, 0x00000005, 0xFFF0000F⟩
  | .cmp _ _        => ⟨.cmp,    0x00000006, 0xFFFF00FF⟩

/-- Masking a packed word masks each field of R71 by itself. -/
theorem pack_and (f : Fields) (m₀ : BitVec 11) (m₁ : BitVec 1) (m₂ m₃ m₄ m₅ m₆ : BitVec 4) :
    f.pack &&& (m₀ ++ m₁ ++ m₂ ++ m₃ ++ m₄ ++ m₅ ++ m₆ : Word) =
      ((0 : BitVec 11) &&& m₀) ++ (BitVec.ofBool f.m &&& m₁) ++ (BitVec.ofFin f.rc &&& m₂) ++
        (BitVec.ofFin f.rb &&& m₃) ++ (BitVec.ofFin f.ra &&& m₄) ++ (BitVec.ofFin f.rd &&& m₅) ++ (f.op &&& m₆) := by
  refine BitVec.and_append.trans (congrArg (· ++ (f.op &&& m₆)) ?_)
  refine BitVec.and_append.trans (congrArg (· ++ (BitVec.ofFin f.rd &&& m₅)) ?_)
  refine BitVec.and_append.trans (congrArg (· ++ (BitVec.ofFin f.ra &&& m₄)) ?_)
  refine BitVec.and_append.trans (congrArg (· ++ (BitVec.ofFin f.rb &&& m₃)) ?_)
  refine BitVec.and_append.trans (congrArg (· ++ (BitVec.ofFin f.rc &&& m₂)) ?_)
  exact BitVec.and_append

/-- The mask of formats R3 and D, field by field (R72). -/
theorem mask_three : (0xFFFF000F : Word) =
    (0x7FF#11 ++ 1#1 ++ 0xF#4 ++ 0#4 ++ 0#4 ++ 0#4 ++ 0xF#4 : Word) := by decide

/-- The mask of format R4, field by field (R72). -/
theorem mask_four : (0xFFF0000F : Word) =
    (0x7FF#11 ++ 1#1 ++ 0#4 ++ 0#4 ++ 0#4 ++ 0#4 ++ 0xF#4 : Word) := by decide

/-- The mask of format C, field by field (R72). -/
theorem mask_compare : (0xFFFF00FF : Word) =
    (0x7FF#11 ++ 1#1 ++ 0xF#4 ++ 0#4 ++ 0#4 ++ 0xF#4 ++ 0xF#4 : Word) := by decide

/-- The command's row is one of the table and selects the command's word (R74). -/
def Statement (i : Instr) : Prop := rowOf i ∈ opcodeTable ∧ encode i &&& (rowOf i).mask = (rowOf i).pattern

theorem nop : Statement .nop := ⟨by decide, by decide⟩

theorem add (rd ra rb : RegIdx) : Statement (.add rd ra rb) :=
  ⟨by simp [rowOf, opcodeTable], by
    show encode _ &&& 0xFFFF000F = _
    rw [mask_three, encode, pack_and]
    simp only [Instr.fields, BitVec.and_zero, rowOf]
    decide⟩

theorem sub (rd ra rb : RegIdx) : Statement (.sub rd ra rb) :=
  ⟨by simp [rowOf, opcodeTable], by
    show encode _ &&& 0xFFFF000F = _
    rw [mask_three, encode, pack_and]
    simp only [Instr.fields, BitVec.and_zero, rowOf]
    decide⟩

theorem mul (rd ra rb : RegIdx) : Statement (.mul rd ra rb) :=
  ⟨by simp [rowOf, opcodeTable], by
    show encode _ &&& 0xFFFF000F = _
    rw [mask_three, encode, pack_and]
    simp only [Instr.fields, BitVec.and_zero, rowOf]
    decide⟩

theorem divq (rd ra rb : RegIdx) : Statement (.divq rd ra rb) :=
  ⟨by simp [rowOf, opcodeTable], by
    show encode _ &&& 0xFFFF000F = _
    rw [mask_three, encode, pack_and]
    simp only [Instr.fields, BitVec.and_zero, rowOf]
    decide⟩

theorem divr (rd ra rb : RegIdx) : Statement (.divr rd ra rb) :=
  ⟨by simp [rowOf, opcodeTable], by
    show encode _ &&& 0xFFFF000F = _
    rw [mask_three, encode, pack_and]
    simp only [Instr.fields, BitVec.and_zero, rowOf]
    decide⟩

theorem powmod (rd ra rb rc : RegIdx) : Statement (.powmod rd ra rb rc) :=
  ⟨by simp [rowOf, opcodeTable], by
    show encode _ &&& 0xFFF0000F = _
    rw [mask_four, encode, pack_and]
    simp only [Instr.fields, BitVec.and_zero, rowOf]
    decide⟩

theorem cmp (ra rb : RegIdx) : Statement (.cmp ra rb) :=
  ⟨by simp [rowOf, opcodeTable], by
    show encode _ &&& 0xFFFF00FF = _
    rw [mask_compare, encode, pack_and]
    simp only [Instr.fields, BitVec.and_zero, rowOf]
    decide⟩

end Sys2Proof.Laws.Row
end

