-- ==== Sys2Proof/Laws/Step.lean ====
section
/-! SUPPORT. What a step can do, said once: which input it takes, and what a host access does. -/

namespace Sys2Proof.Machine

/-- A step that answers a next state runs under a valid configuration and takes exactly one of the three kinds of step
(R20). -/
theorem step_next_cases {s t : State} (h : step s = .next t) :
    s.cfg.valid = true ∧
      ((s.events = [] ∧ engineStep s = .next t) ∨
       (∃ es, s.events = .engine :: es ∧ engineStep { s with events := es } = .next t) ∨
       (∃ es, s.events = .reset :: es ∧ t = { State.resetWith s.cfg with events := es }) ∨
       (∃ a es, s.events = .host a :: es ∧ hostStep a { s with events := es } = .next t)) := by
  simp only [step] at h
  split at h
  · next hv =>
    refine ⟨hv, ?_⟩
    simp only [stepEvent] at h
    split at h
    · next he => exact .inl ⟨he, h⟩
    · next es he => exact .inr (.inl ⟨es, he, h⟩)
    · next es he =>
      refine .inr (.inr (.inl ⟨es, he, ?_⟩))
      simpa [platformReset] using h.symm
    · next a es he => exact .inr (.inr (.inr ⟨a, es, he, h⟩))
  · cases h

/-- An engine turn either runs the pending command or changes nothing (R40, R149). -/
theorem engineStep_cases (s : State) :
    (∃ p, s.status.busy = true ∧ s.pend = some p ∧ engineStep s = exec p.instr s) ∨ engineStep s = .next s := by
  simp only [engineStep]
  split
  · next p hb hp => exact .inl ⟨p, hb, hp, rfl⟩
  · exact .inr rfl

/-- A host access that answers a next state is 4 bytes wide at an aligned offset of the aperture, and is a read that
changes only the bus data, or a write of its port (R54, R57, R58). -/
theorem hostStep_next_cases {a : Access} {s t : State} (h : hostStep a s = .next t) :
    ∃ off, offsetOf s.cfg a.addr = some off ∧ off % 4 = 0 ∧ a.width = 4 ∧
      ((a.op = .read ∧ t = { s with reply := some (s.memRead off) }) ∨
       (∃ w, a.op = .write w ∧ State.memWrite { s with reply := none } off w = .next t)) := by
  simp only [hostStep] at h
  split at h
  · cases h
  · next off ho =>
    split at h
    · next hw =>
      simp only [accessWf, Bool.and_eq_true, beq_iff_eq] at hw
      refine ⟨off, ho, hw.1, hw.2, ?_⟩
      split at h
      · next hop => exact .inl ⟨hop, by simpa using h.symm⟩
      · next w hop => exact .inr ⟨w, hop, h⟩
    · cases h

/-- The step of a host write at a legal offset (R58). -/
theorem step_wr {s : State} {off : Nat} {w : Word} {es : List Event} (hv : s.cfg.valid = true) (ho : off < 4096)
    (ha : off % 4 = 0) (he : s.events = wr s.cfg off w :: es) :
    step s = State.memWrite { s with events := es, reply := none } off w := by
  have h : offsetOf s.cfg (s.cfg.base + off) = some off := by
    simp [offsetOf, Config.apertureBytes, ho]
  simp [step, hv, stepEvent, he, wr, hostStep, h, accessWf, ha]

/-- The step of a host read at a legal offset (R57). -/
theorem step_rd {s : State} {off : Nat} {es : List Event} (hv : s.cfg.valid = true) (ho : off < 4096)
    (ha : off % 4 = 0) (he : s.events = rd s.cfg off :: es) :
    step s = .next { s with events := es, reply := some (s.memRead off) } := by
  have h : offsetOf s.cfg (s.cfg.base + off) = some off := by
    simp [offsetOf, Config.apertureBytes, ho]
  simp [step, hv, stepEvent, he, rd, hostStep, h, accessWf, ha, State.memRead]
  rfl

/-- The window's offset is the port of its word (R36). -/
theorem portAt_win {maxw k : Nat} (h : k < maxw) : portAt maxw (0x800 + 4 * k) = .win k := by
  have low {c : Nat} (hc : c < 0x800) : 0x800 + 4 * k ≠ c := by omega
  simp [portAt, h, low]

/-- Only the window's offsets are ports of the window (R52). -/
theorem portAt_eq_win {maxw off k : Nat} (h : portAt maxw off = .win k) (ha : off % 4 = 0) : off = 0x800 + 4 * k ∧ k < maxw := by
  unfold portAt at h
  split_ifs at h with _ _ _ _ _ _ _ _ _ hw
  obtain rfl := Port.win.inj h
  omega

/-- Only offset 0x020 is VCLR (R52). -/
theorem portAt_eq_vclr {maxw off : Nat} (h : portAt maxw off = .vclr) : off = 0x020 := by
  unfold portAt at h
  split_ifs at h
  assumption

/-- An acceptance completes at once for NOP and for an illegal word, and leaves any other command pending (R38). -/
theorem accept_cases (s : State) (w : Word) :
    (decodeWord w = .ok .nop ∧ s.accept w = exec .nop (s.beginCommand w)) ∨
    (∃ i, decodeWord w = .ok i ∧ i ≠ .nop ∧ s.accept w = .next ((s.beginCommand w).enqueue i)) ∨
    (∃ e, decodeWord w = .error e ∧ s.accept w = .next ((s.beginCommand w).raise .illegalCmd)) := by
  cases h : decodeWord w with
  | error e => exact .inr (.inr ⟨e, rfl, by simp [State.accept, h]⟩)
  | ok i =>
    by_cases hn : i = .nop
    · exact .inl ⟨by rw [hn], by simp [State.accept, h, hn]⟩
    · exact .inr (.inl ⟨i, rfl, hn, by cases i <;> simp_all [State.accept]⟩)

/-- A port write always answers a next state, and one that changes the words of a register is a write of WIN or a clearing
write of VCLR, while idle, to the selected register (R36, R37, R39, R58). -/
theorem writePort_words (s : State) (w : Word) (p : Port) : ∃ t, s.writePort w p = .next t ∧ ∀ r, t.words r ≠ s.words r →
    s.status.busy = false ∧ s.sel = r ∧ ((∃ k, p = .win k) ∨ (p = .vclr ∧ w.getLsbD 0 = true)) := by
  have keep {t : State} {P : Prop} {r : RegIdx} (hr : t.words r ≠ s.words r) (h : t.v = s.v) : P :=
    absurd (State.words_congr h r) hr
  have set {ws r} (hr : (s.setWords s.sel ws).words r ≠ s.words r) : s.sel = r :=
    Classical.byContradiction fun hn => hr (State.words_setWords_ne s ws hn)
  cases p with
  | cmd =>
    simp only [State.writePort]
    split
    · exact ⟨_, rfl, fun _ hr => keep hr rfl⟩
    · rcases accept_cases s w with ⟨_, e⟩ | ⟨i, _, _, e⟩ | ⟨_, _, e⟩ <;> exact ⟨_, e, fun _ hr => keep hr rfl⟩
  | vclr =>
    refine ⟨_, rfl, fun r => ?_⟩
    split
    · next hw =>
      split
      · exact fun hr => keep hr rfl
      · next hb => exact fun hr => ⟨by simpa using hb, set hr, .inr ⟨rfl, hw⟩⟩
    · exact fun hr => keep hr rfl
  | win k =>
    refine ⟨_, rfl, fun r => ?_⟩
    split
    · exact fun hr => keep hr rfl
    · next hb => exact fun hr => ⟨by simpa using hb, set hr, .inl ⟨k, rfl⟩⟩
  | id | config | status | ctrl | sel | len | bitlen | reserved => exact ⟨_, rfl, fun _ hr => keep hr rfl⟩

/-- A port write keeps Z, CY and CMP (R58, R38). -/
theorem writePort_flags {s t : State} {w : Word} {p : Port} (h : s.writePort w p = .next t) :
    t.status.z = s.status.z ∧ t.status.cy = s.status.cy ∧ t.status.cmp = s.status.cmp := by
  have same {u : State} (hu : s.writePort w p = .next u)
      (h' : u.status.z = s.status.z ∧ u.status.cy = s.status.cy ∧ u.status.cmp = s.status.cmp) :
      t.status.z = s.status.z ∧ t.status.cy = s.status.cy ∧ t.status.cmp = s.status.cmp := by
    rw [hu] at h; cases h; exact h'
  cases p with
  | cmd =>
    by_cases hb : s.status.busy = true
    · exact same (u := s.loseCmd) (by simp [State.writePort, hb]) ⟨rfl, rfl, rfl⟩
    · have e : s.writePort w .cmd = s.accept w := by simp [State.writePort, hb]
      rcases accept_cases s w with ⟨_, e'⟩ | ⟨i, _, _, e'⟩ | ⟨_, _, e'⟩ <;> exact same (e.trans e') ⟨rfl, rfl, rfl⟩
  | vclr =>
    refine same rfl ?_
    split
    · split <;> exact ⟨rfl, rfl, rfl⟩
    · exact ⟨rfl, rfl, rfl⟩
  | win k => refine same rfl ?_; split <;> exact ⟨rfl, rfl, rfl⟩
  | id | config | status | ctrl | sel | len | bitlen | reserved => exact same rfl ⟨rfl, rfl, rfl⟩

end Sys2Proof.Machine
end

