-- ==== Sys2Proof/Tests/Slice0.lean ====
section
/-! SUPPORT. Checks of the model against the spec's own words and numbers, each named, and for every statement with
hypotheses a concrete witness of them.  Expected values are those of 95_test_vectors.md or of the rule cited. -/

open Sys2Proof Sys2Proof.Machine

namespace Sys2Proof.Tests

/-! ### Small machines -/

/-- A configuration with registers of `n` words. -/
def cfgOf (n : Nat) : Config := { maxw := n, base := 0x1000, irqLine := 3 }

/-- The reset machine with some registers loaded. -/
def machine (n : Nat) (regs : List (RegIdx × Nat)) : State :=
  regs.foldl (fun s p => s.setValue p.1 p.2) (State.resetWith (cfgOf n))

/-- An outcome that is a next state with a property. -/
def gives (o : Outcome) (f : State → Bool) : Bool :=
  match o with
  | .next t => f t
  | .fault _ => false
  | .refused _ => false

/-- The outcome of the first step with the given inputs. -/
def after (s : State) (es : List Event) : Outcome := step { s with events := es }

/-- An idle machine, V0 = 5, V1 = 7, with inputs. -/
def idle (es : List Event) : State := { machine 4 [(0, 5), (1, 7)] with events := es }

/-- The same machine with `ADD v2, v0, v1` accepted and pending. -/
def busy (es : List Event) : State :=
  { idle es with
    cmdreg := 0x00001021
    status := { Status.reset with busy := true }
    pend := some { instr := .add 2 0 1, ops := { a := 5, b := 7, c := 5 } } }

theorem machine_sized (n : Nat) (regs : List (RegIdx × Nat)) : (machine n regs).Sized := by
  unfold machine
  generalize State.resetWith (cfgOf n) = s, resetWith_sized (cfgOf n) = h
  induction regs generalizing s with
  | nil => exact h
  | cons p ps ih => exact ih _ (h.setValue p.1 p.2)

theorem idle_sized (es : List Event) : (idle es).Sized := machine_sized 4 [(0, 5), (1, 7)]

theorem busy_sized (es : List Event) : (busy es).Sized := machine_sized 4 [(0, 5), (1, 7)]

theorem busy_inv (es : List Event) : (busy es).Inv where
  valid := by show (cfgOf 4).valid = true; decide
  sized := busy_sized es
  busy_pend := rfl
  cmp_legal := by show (0 : BitVec 2) ≠ 3; decide
  err_code := rfl
  pending := by
    intro p hp
    cases hp
    exact ⟨by decide, by show decodeWord 0x00001021 = .ok (.add 2 0 1); decide, rfl, rfl⟩
  snapshot := by
    intro p hp
    cases hp
    show _ = (busy []).capture (.add 2 0 1)
    decide
  code := by intro h; cases h

/-! ### WellFormed: each check refuses an ill-formed term -/

/-- R83: `vd != vm`. -/
theorem test_wf_modmul : (Pseudo.modmul 3 1 2 3).wf = false ∧ (Pseudo.modmul 3 1 3 2).wf = true := by decide
theorem test_wf_modsqr : (Pseudo.modsqr 4 1 4).wf = false ∧ (Pseudo.modsqr 4 4 1).wf = true := by decide
/-- R54: widths 1, 2 and 8, and misaligned offsets. -/
theorem test_wf_access : accessWf 0x00C 1 = false ∧ accessWf 0x00C 2 = false ∧ accessWf 0x00C 8 = false ∧
    accessWf 0x00E 4 = false ∧ accessWf 0x00C 4 = true := by decide
/-- U15 and R50: MAXW below 1 or above 512, and a BASE that is not 4096-byte aligned. -/
theorem test_wf_config : Config.valid ⟨0, 0, 0⟩ = false ∧ Config.valid ⟨513, 0, 0⟩ = false ∧
    Config.valid ⟨128, 0x1004, 0⟩ = false ∧ Config.valid ⟨1, 0, 0⟩ = true ∧ Config.valid ⟨512, 0x7000, 9⟩ = true := by decide
theorem test_bad_config_refused : step { State.reset with cfg := ⟨513, 0, 0⟩ } = .refused (.badConfiguration ⟨513, 0, 0⟩) := by
  rfl

/-! ### Decode: 95_test_vectors.md §3 and R80 -/

theorem test_decode_nop : decodeWord 0x00000000 = .ok .nop := by decide
theorem test_decode_add : decodeWord 0x00001021 = .ok (.add 2 0 1) := by decide
theorem test_decode_sub : decodeWord 0x00000122 = .ok (.sub 2 1 0) := by decide
theorem test_decode_mul : decodeWord 0x00002163 = .ok (.mul 6 1 2) := by decide
theorem test_decode_divq : decodeWord 0x00001024 = .ok (.divq 2 0 1) := by decide
theorem test_decode_divr : decodeWord 0x00101034 = .ok (.divr 3 0 1) ∧ decodeWord 0x00107664 = .ok (.divr 6 6 7) := by decide
theorem test_decode_powmod : decodeWord 0x00001345 = .ok (.powmod 4 3 1 0) ∧
    decodeWord 0x000FFFF5 = .ok (.powmod 15 15 15 15) := by decide
theorem test_decode_cmp : decodeWord 0x00003506 = .ok (.cmp 5 3) := by decide
/-- R71's pattern bit by bit: `00000000000 m cccc bbbb aaaa dddd oooo` with m = 1, b = 0b0111, a = 0b0110, d = 0b1001. -/
theorem test_decode_bits : decodeWord 0b00000000000_1_0000_0111_0110_1001_0100 = .ok (.divr 9 6 7) := by decide
theorem test_illegal_opcode : decodeWord 0x00000007 = .error (.reservedOpcode 7) ∧
    decodeWord 0x0000000F = .error (.reservedOpcode 0xF) := by decide
theorem test_illegal_reserved_bits : decodeWord 0x00201021 = .error .reservedBits ∧
    decodeWord 0x80000000 = .error .reservedBits := by decide
theorem test_illegal_unused_field : decodeWord 0x00011021 = .error .unusedFieldNonzero ∧
    decodeWord 0x00101021 = .error .unusedFieldNonzero ∧ decodeWord 0x00100005 = .error .unusedFieldNonzero ∧
    decodeWord 0x00000016 = .error .unusedFieldNonzero ∧ decodeWord 0x00000010 = .error .unusedFieldNonzero := by decide
theorem test_truncated : decodeBytes [0x21, 0x10, 0x00] = .error .truncated := by decide
/-- R56: lane 0 carries bits 7:0. -/
theorem test_bytes : encodeBytes (.add 2 0 1) = [0x21, 0x10, 0x00, 0x00] ∧
    decodeBytes [0x21, 0x10, 0x00, 0x00, 0xAA] = .ok (.add 2 0 1, [0xAA]) := by decide
theorem test_table_word : decodeTableWord 32 0x00107664 = some (.divr 6 6 7) ∧ decodeTableWord 32 0x00000007 = none := by decide
/-- R82's encoding column, with every field different. -/
theorem test_encode : encode .nop = 0 ∧ encode (.add 13 10 6) = 0x00006AD1 ∧
    encode (.sub 13 10 6) = 0x00006AD2 ∧ encode (.mul 13 10 6) = 0x00006AD3 ∧ encode (.divq 13 10 6) = 0x00006AD4 ∧
    encode (.divr 13 10 6) = 0x00106AD4 ∧ encode (.powmod 13 10 6 9) = 0x00096AD5 ∧ encode (.cmp 10 6) = 0x00006A06 := by decide

/-! ### The commands, one or two vectors each (95_test_vectors.md §2) -/

theorem test_nop : gives (after { machine 4 [] with status := { Status.reset with z := true } } [cmdWrite (cfgOf 4) 0])
    (fun t => t.status.toWord == 0x00000102) = true := by decide
theorem test_add_carry : gives (exec (.add 2 0 1) (machine 4 [(0, 0xFFFFFFFF_FFFFFFFF), (1, 0xFFFFFFFF_FFFFFFFF)]))
    (fun t => t.value 2 == 0x1_FFFFFFFF_FFFFFFFE && t.status.toWord == 0x00000202) = true := by decide
theorem test_add_overflow : gives (exec (.add 2 0 1) (machine 1 [(0, 0xFFFFFFFF), (1, 1), (2, 9)]))
    (fun t => t.value 2 == 9 && t.status.toWord == 0x00000046) = true := by decide
theorem test_sub_borrow : gives (exec (.sub 0 0 1) (machine 4 [(0, 0x1_00000000_00000000_00000000), (1, 1)]))
    (fun t => t.value 0 == 0xFFFFFFFF_FFFFFFFF_FFFFFFFF && t.status.toWord == 0x00000002) = true := by decide
theorem test_sub_underflow : gives (exec (.sub 2 0 1) (machine 4 [(0, 3), (1, 5), (2, 9)]))
    (fun t => t.value 2 == 9 && t.status.toWord == 0x00000036) = true := by decide
theorem test_mul_exact_fit : gives (exec (.mul 2 0 1) (machine 2 [(0, 0xFFFFFFFF), (1, 0x1_00000001)]))
    (fun t => t.value 2 == 0xFFFFFFFF_FFFFFFFF && t.status.toWord == 0x00000002) = true := by decide
theorem test_mul_overflow : gives (exec (.mul 2 0 1) (machine 2 [(0, 0x1_00000000), (1, 0x1_00000000)]))
    (fun t => t.value 2 == 0 && t.status.toWord == 0x00000046) = true := by decide
theorem test_divq : gives (exec (.divq 2 0 1) (machine 4 [(0, 100), (1, 7)]))
    (fun t => t.value 2 == 14 && t.status.toWord == 0x00000002) = true := by decide
theorem test_divq_zero : gives (exec (.divq 2 0 1) (machine 4 [(0, 5), (2, 9)]))
    (fun t => t.value 2 == 9 && t.status.toWord == 0x00000026) = true := by decide
theorem test_divr : gives (exec (.divr 1 0 1) (machine 4 [(0, 100), (1, 7)])) (fun t => t.value 1 == 2) = true := by decide
theorem test_divr_exact : gives (exec (.divr 2 0 1) (machine 4 [(0, 0xFFFFFFFF_FFFFFFFF_FFFFFFFF_FFFFFFFF), (1, 0xFFFFFFFF)]))
    (fun t => t.value 2 == 0 && t.status.toWord == 0x00000102) = true := by decide
theorem test_powmod : gives (exec (.powmod 3 0 1 2) (machine 4 [(0, 2790), (1, 2753), (2, 3233)]))
    (fun t => t.value 3 == 65 && t.status.toWord == 0x00000002) = true := by decide
theorem test_powmod_corners : gives (exec (.powmod 3 0 1 2) (machine 4 [(0, 5), (3, 9)])) (fun t => t.value 3 == 1) = true ∧
    gives (exec (.powmod 3 0 1 2) (machine 4 [(0, 5), (1, 3), (3, 9)]))
      (fun t => t.value 3 == 9 && t.status.ecode == 2) = true ∧
    gives (exec (.powmod 3 0 1 2) (machine 4 [(0, 5), (1, 3), (2, 1)]))
      (fun t => t.value 3 == 0 && t.status.z) = true := by decide
theorem test_cmp : gives (exec (.cmp 0 1) (machine 4 [(0, 7), (1, 100)])) (fun t => t.status.cmp == 0b10) = true ∧
    gives (exec (.cmp 1 0) (machine 4 [(0, 0xFFFFFFFF), (1, 0x1_00000000)])) (fun t => t.status.cmp == 0b01) = true ∧
    gives (exec (.cmp 0 1) (machine 4 [])) (fun t => t.status.cmp == 0b00) = true := by decide

/-! ### The engine's datapaths (95_test_vectors.md §2.6, §2.7) -/

theorem test_knuth_shift : divideKnuth 0x123_00004567_000089AB 0x1_00000000 = (0x123_00004567, 0x89AB) := by decide
theorem test_knuth_addback : divideKnuth 0x7FFFFFFF_80000000_00000000_00000000 0x80000000_00000000_00000001
    = (0xFFFFFFFE, 0x7FFFFFFF_FFFFFFFF_00000002) := by decide
theorem test_knuth_clamp : divideKnuth 0x8000_00000000_0000FFFE_00000000 0x8000_0000FFFF
    = (0xFFFFFFFE_00020005, 0x7FF9_FFFD0005) := by decide
theorem test_knuth_correct : divideKnuth 0x7FFF8000_00000000_00000000 0x80000000_00000001
    = (0xFFFEFFFF, 0x7FFFFFFF_00010001) := by decide
theorem test_knuth_short : divideKnuth 0x1_00000000 0x1_00000000_00000000 = (0, 0x1_00000000) := by decide
theorem test_single_word : divideSingle 0xFFFFFFFF_FFFFFFFF_FFFFFFFF_FFFFFFFF 0xFFFFFFFF
    = (0x1_00000001_00000001_00000001, 0) := by decide
theorem test_multiplier : multiplier 0xFFFFFFFF_FFFFFFFF 0xFFFFFFFF_FFFFFFFF = [1, 0, 0xFFFFFFFE, 0xFFFFFFFF] := by decide
theorem test_adder : adder 1 0xFFFFFFFF_FFFFFFFF = [0, 0, 1] := by decide
theorem test_subtractor : subtractor 0x1_00000000_00000000 1 = [0xFFFFFFFF, 0xFFFFFFFF] := by decide
theorem test_powmod_two_words : powMod 2 0x1_00000000_00000001 0x1FFFFFFF_FFFFFFFF = 0x20000 := by decide +kernel

/-! ### The aperture, the steps and reset -/

/-- R31, R32. -/
theorem test_id_config : (machine 128 []).memRead 0x000 = 0x424E0001 ∧ (machine 128 []).memRead 0x004 = 0x00008010 := by decide +kernel
/-- The reads at the end of program P1. -/
theorem test_len_bitlen : (({ machine 4 [(2, 0x100)] with sel := 2 } : State).memRead 0x018,
    ({ machine 4 [(2, 0x100)] with sel := 2 } : State).memRead 0x01C,
    ({ machine 4 [(2, 0x100)] with sel := 2 } : State).memRead 0x800) = (1, 9, 0x100) := by decide
/-- P4: STATUS while BUSY with CMP = 0b10 and CMDLOST is 0x0000_1801. -/
theorem test_status_word : ({ Status.reset with busy := true, cmp := 0b10, cmdlost := true } : Status).toWord = 0x00001801 := by
  decide
theorem test_status_write : ({ Status.reset with done := true, err := true, cmdlost := true, winlost := true } : Status).clearWritten
    0x00001007 = { Status.reset with err := true, winlost := true } := by decide
theorem test_irq_line : State.raisedLine { machine 4 [] with ie := true, status := { Status.reset with done := true } } = some 3 ∧
    State.raisedLine { machine 4 [] with status := { Status.reset with done := true } } = none := by decide
theorem test_bus_error : step (idle [.host ⟨.read, 0x100C, 2⟩]) = .fault (.busError ⟨.read, 0x100C, 2⟩) := by rfl
theorem test_outside : step (idle [.host ⟨.read, 0x2000, 4⟩]) = .fault (.outsideAperture ⟨.read, 0x2000, 4⟩) := by rfl
/-- The very next step after `withFetchWord` from reset runs the command: V0 + V1 = 0, so Z and DONE. -/
theorem test_fetched_add : gives (step (State.reset.withFetchWord 32 0x00001021))
    (fun t => t.status.toWord == 0x00000102 && t.cmdreg == 0x00001021 && t.pend.isNone) = true := by decide +kernel
theorem test_fetched_illegal : gives (step (State.reset.withFetchWord 32 0x00000007))
    (fun t => t.status.toWord == 0x00000016 && t.cmdreg == 7) = true := by decide +kernel
/-- P2's command after the loads, in three steps: write, completion, read of STATUS. -/
theorem test_issue : gives (Host.Core.run core 3
      { machine 4 [(0, 100), (1, 7)] with events := issue (cfgOf 4) [.divq 2 0 1] ++ [rd (cfgOf 4) 0x00C] })
    (fun t => t.value 2 == 14 && t.reply == some 0x00000002) = true := by decide
theorem test_reset_in_busy : gives (step (busy [.reset])) (fun t => t == State.resetWith (cfgOf 4)) = true := by decide

/-! ### The assembler (R82, R83) -/

theorem test_asm_line : assembleLine "  MUL V6,v1 , v2   ; e*d".toList = .ok [.mul 6 1 2] := by decide
theorem test_asm_pseudo : assembleLine "MODMUL v15, v1, v2, v10".toList = .ok [.mul 15 1 2, .divr 15 15 10] ∧
    assembleLine "SQR v3, v2".toList = .ok [.mul 3 2 2] := by decide
theorem test_asm_errors : assembleLine "MODSQR v4, v1, v4".toList = .error .pseudoCondition ∧
    assembleLine "ADD v1, v2".toList = .error .wrongOperandCount ∧ assembleLine "CMP v1, v16".toList = .error .badOperand ∧
    assembleLine "JMP v1".toList = .error .unknownMnemonic ∧ assembleLine "; nothing".toList = .ok [] := by decide

/-! ### Witnesses: states and operands that meet the hypotheses of each statement, one for each clause -/

theorem witness_LegalWordIsItsEncoding : decodeWord 0x000FFFF5 = .ok (.powmod 15 15 15 15) := by decide

theorem witness_AtMostOneRowSelects : ⟨.divr, 0x00100004, 0xFFFF000F⟩ ∈ opcodeTable ∧
    Row.selects ⟨.divr, 0x00100004, 0xFFFF000F⟩ 0x0010FFF4 = true := by decide

/-- One word for each disjunct of the statement, and a legal word that meets none. -/
theorem witness_IllegalWordsByField : (∃ e, decodeWord 0x00000007 = .error e) ∧ (∃ e, decodeWord 0x00200000 = .error e) ∧
    (∃ e, decodeWord 0x00000010 = .error e) ∧ (∃ e, decodeWord 0x00010001 = .error e) ∧
    (∃ e, decodeWord 0x00010004 = .error e) ∧ (∃ e, decodeWord 0x00100005 = .error e) ∧
    (∃ e, decodeWord 0x00000016 = .error e) ∧ decodeWord 0x0010FFF4 = .ok (.divr 15 15 15) := by
  refine ⟨⟨.reservedOpcode 7, ?_⟩, ⟨.reservedBits, ?_⟩, ⟨.unusedFieldNonzero, ?_⟩, ⟨.unusedFieldNonzero, ?_⟩,
    ⟨.unusedFieldNonzero, ?_⟩, ⟨.unusedFieldNonzero, ?_⟩, ⟨.unusedFieldNonzero, ?_⟩, ?_⟩ <;> decide

/-- An idle machine with a NOP, an illegal word and a command for the engine at CMD. -/
theorem witness_AcceptanceOfAnyWord : (cfgOf 4).valid = true ∧ (idle []).status.busy = false ∧ (idle []).pend = none ∧
    (idle [cmdWrite (cfgOf 4) 0]).events = cmdWrite (idle []).cfg 0 :: [] ∧ decodeWord 0 = .ok .nop ∧
    (idle [cmdWrite (cfgOf 4) 7]).events = cmdWrite (idle []).cfg 7 :: [] ∧ decodeWord 7 = .error (.reservedOpcode 7) ∧
    (idle [cmdWrite (cfgOf 4) 0x1006]).events = cmdWrite (idle []).cfg 0x1006 :: [] ∧
    decodeWord 0x1006 = .ok (.cmp 0 1) := by decide

theorem witness_IllegalWordCompletesAtAcceptance : (idle []).cfg.valid = true ∧ (idle []).status.busy = false ∧
    (idle [cmdWrite (cfgOf 4) 0xFFFFFFFF]).events = cmdWrite (idle []).cfg 0xFFFFFFFF :: [] ∧
    decodeWord 0xFFFFFFFF = .error (.reservedOpcode 0xF) := by decide

theorem witness_NopCompletesAtAcceptance : (idle []).cfg.valid = true ∧ (idle []).status.busy = false ∧ (idle []).pend = none ∧
    (idle [cmdWrite (cfgOf 4) 0, .engine]).events = cmdWrite (idle []).cfg 0 :: [.engine] ∧ (busy []).status.busy = true ∧
    (busy [cmdWrite (cfgOf 4) 0]).events = cmdWrite (busy []).cfg 0 :: [] := by decide

/-- The first and the last window word of `MAXW = 4`, a CMD and a VCLR write, and a state of the invariant. -/
theorem witness_BusyDropsHostWrites : (busy []).cfg.valid = true ∧ (busy []).status.busy = true ∧ 0 < (busy []).cfg.maxw ∧
    3 < (busy []).cfg.maxw ∧ (busy [wr (cfgOf 4) 0x008 9]).events = wr (busy []).cfg 0x008 9 :: [] ∧
    (busy [wr (cfgOf 4) 0x80C 9]).events = wr (busy []).cfg (0x800 + 4 * 3) 9 :: [] ∧
    (busy [wr (cfgOf 4) 0x020 1]).events = wr (busy []).cfg 0x020 1 :: [] ∧ (1 : Word).getLsbD 0 = true ∧
    gives (step (busy [wr (cfgOf 4) 0x014 9])) (fun t => t.sel == 9) = true ∧
    (busy [rd (cfgOf 4) 0x800]).events = rd (busy []).cfg (0x800 + 4 * 0) :: [] ∧
    (busy [rd (cfgOf 4) 0x018]).events = rd (busy []).cfg 0x018 :: [] ∧
    (busy [rd (cfgOf 4) 0x01C]).events = rd (busy []).cfg 0x01C :: [] := by decide

theorem witness_BusyDropsHostWrites_snapshot : (busy []).Inv ∧ (busy []).pend = some ⟨.add 2 0 1, ⟨5, 7, 5⟩⟩ :=
  ⟨busy_inv [], rfl⟩

theorem witness_StepRunsDecodedCommand : (idle []).cfg.valid = true ∧ (idle []).status.busy = false ∧
    decodeWord 0x00001021 = .ok (.add 2 0 1) ∧ Instr.add 2 0 1 ≠ .nop ∧
    (idle [cmdWrite (cfgOf 4) 0x1021, .engine]).events = cmdWrite (idle []).cfg 0x1021 :: .engine :: [] ∧
    (idle [cmdWrite (cfgOf 4) 0]).events = cmdWrite (idle []).cfg (encode .nop) :: [] ∧
    (busy []).status.busy = true ∧ (busy []).pend = some ⟨.add 2 0 1, ⟨5, 7, 5⟩⟩ ∧ (busy []).events = [] ∧
    (idle [.engine]).events = .engine :: [] := by decide

theorem witness_FetchedWordRunsNext : State.reset.cfg.valid = true ∧ decodeTableWord 32 0x00005345 = some (.powmod 4 3 5 0) ∧
    Instr.powmod 4 3 5 0 ≠ .nop ∧ decodeTableWord 32 0 = some .nop ∧ decodeTableWord 32 0xFFFFFFFF = none := by decide

theorem witness_OperandsAreTheSnapshot : (busy []).pend = some ⟨.add 2 0 1, ⟨5, 7, 5⟩⟩ ∧ (idle []).pend = none := by decide

theorem witness_OperandsAreTheSnapshot_inv : (busy []).Inv ∧ ∀ p, (busy []).pend = some p → p.instr = .add 2 0 1 :=
  ⟨busy_inv [], by intro p hp; cases hp; rfl⟩

/-- MAXW = 1: the largest sum that fits and the least that does not. -/
theorem witness_AddCompletes :
    ((machine 1 [(0, 0xFFFFFFFE), (1, 1)]).operands (.add 2 0 1)).a + ((machine 1 [(0, 0xFFFFFFFE), (1, 1)]).operands (.add 2 0 1)).b
      < 2 ^ (32 * (machine 1 [(0, 0xFFFFFFFE), (1, 1)]).cfg.maxw) ∧
    2 ^ (32 * (machine 1 [(0, 0xFFFFFFFF), (1, 1)]).cfg.maxw)
      ≤ ((machine 1 [(0, 0xFFFFFFFF), (1, 1)]).operands (.add 2 0 1)).a
        + ((machine 1 [(0, 0xFFFFFFFF), (1, 1)]).operands (.add 2 0 1)).b := by decide

/-- Equal operands at the largest value, and a minuend one below. -/
theorem witness_SubCompletes : let s := machine 1 [(0, 0xFFFFFFFF), (1, 0xFFFFFFFE)]
    (s.operands (.sub 2 0 0)).b ≤ (s.operands (.sub 2 0 0)).a ∧ (s.operands (.sub 2 0 0)).a < 2 ^ (32 * s.cfg.maxw) ∧
    (s.operands (.sub 2 1 0)).a < (s.operands (.sub 2 1 0)).b := by decide

theorem witness_MulCompletes : let s := machine 1 [(0, 0xFFFF), (1, 0x10001), (2, 0x10000)]
    (s.operands (.mul 3 0 1)).a * (s.operands (.mul 3 0 1)).b < 2 ^ (32 * s.cfg.maxw) ∧
    2 ^ (32 * s.cfg.maxw) ≤ (s.operands (.mul 3 2 2)).a * (s.operands (.mul 3 2 2)).b := by decide

theorem witness_CmpCompletes : let s := machine 1 [(0, 6), (1, 7)]
    (s.operands (.cmp 1 1)).a = (s.operands (.cmp 1 1)).b ∧ (s.operands (.cmp 1 0)).b < (s.operands (.cmp 1 0)).a ∧
    (s.operands (.cmp 0 1)).a < (s.operands (.cmp 0 1)).b := by decide

theorem witness_DivqCompletes : let s := machine 1 [(0, 0xFFFFFFFF), (1, 1)]
    (s.operands (.divq 3 0 1)).b ≠ 0 ∧ (s.operands (.divq 3 0 1)).a < 2 ^ (32 * s.cfg.maxw) ∧
    (s.operands (.divq 3 0 2)).b = 0 := by decide

theorem witness_DivrCompletes : let s := machine 1 [(0, 0xFFFFFFFF), (1, 1)]
    (s.operands (.divr 3 0 1)).b ≠ 0 ∧ (s.operands (.divr 3 0 1)).a < 2 ^ (32 * s.cfg.maxw) ∧
    (s.operands (.divr 3 0 2)).b = 0 := by decide

/-- The three clauses: exponent 0 with modulus 0; exponent 1 with modulus 0; exponent 1 with the largest modulus. -/
theorem witness_PowmodCompletes : let s := machine 1 [(0, 5), (1, 1), (2, 0xFFFFFFFF)]
    (s.operands (.powmod 4 0 3 3)).b = 0 ∧ 1 ≤ s.cfg.maxw ∧
    (s.operands (.powmod 4 0 1 3)).b ≠ 0 ∧ (s.operands (.powmod 4 0 1 3)).c = 0 ∧
    (s.operands (.powmod 4 0 1 2)).b ≠ 0 ∧ (s.operands (.powmod 4 0 1 2)).c ≠ 0 ∧
    (s.operands (.powmod 4 0 1 2)).c < 2 ^ (32 * s.cfg.maxw) := by decide

theorem witness_DivisionLaw : (idle []).pend = none ∧ (idle []).Sized ∧ ((idle []).operands (.divq 2 0 1)).b ≠ 0 :=
  ⟨rfl, idle_sized [], by decide⟩

theorem witness_AddThenSubRestores : (idle []).pend = none ∧ (2 : RegIdx) ≠ 0 ∧ (2 : RegIdx) ≠ 1 ∧ (idle []).Sized ∧
    gives (exec (.add 2 0 1) (idle [])) (fun t => t.status.ecode == 0) = true :=
  ⟨rfl, by decide, by decide, idle_sized [], by decide⟩

theorem witness_ErrorsArePrecise : gives (exec (.divq 2 0 3) (idle [])) (fun t => t.status.ecode == 2) = true ∧
    gives (exec (.sub 2 0 1) (idle [])) (fun t => t.status.ecode == 3) = true ∧
    gives (exec (.mul 2 0 0) (machine 1 [(0, 0x10000)])) (fun t => t.status.ecode == 4) = true := by decide

theorem witness_ErrorCodeCauses : let s := machine 1 [(0, 0xFFFFFFFF)]
    1 ≤ s.cfg.maxw ∧ (s.operands (.powmod 1 0 0 0)).a < 2 ^ (32 * s.cfg.maxw) ∧
    (s.operands (.powmod 1 0 0 0)).b < 2 ^ (32 * s.cfg.maxw) ∧ (s.operands (.powmod 1 0 0 0)).c < 2 ^ (32 * s.cfg.maxw) := by
  decide

/-- Two machines with the same pending command and different registers; a destination and, for CMP, none. -/
theorem witness_SnapshotDecidesResult : (busy []).cfg = ((busy []).setValue 0 99).cfg ∧
    (busy []).pend = some ⟨.add 2 0 1, ⟨5, 7, 5⟩⟩ ∧ ((busy []).setValue 0 99).pend = some ⟨.add 2 0 1, ⟨5, 7, 5⟩⟩ ∧
    Instr.add 2 0 1 ≠ .nop ∧ (Instr.add 2 0 1).dest = some 2 ∧ (Instr.cmp 0 1).dest = none := by decide

/-- SEL selects another register (the window is unchanged), and SEL selects the destination (CMD is unchanged). -/
theorem witness_CompletionSeenThroughAperture : gives (exec (.add 2 0 1) (idle [])) (fun t => t.memRead 0x800 == 5) = true ∧
    (0x800 : Nat) ≠ 0x00C ∧ (Instr.add 2 0 1).dest ≠ some (idle []).sel ∧ (Instr.add 0 0 1).dest = some (idle []).sel ∧
    (0x008 : Nat) ≠ 0x00C ∧ (0x008 : Nat) ≠ 0x018 ∧ (0x008 : Nat) ≠ 0x01C ∧ (0x008 : Nat) < 0x800 := by decide

/-- Z, CY and CMP: each case of the three flag statements, on one machine. -/
theorem witness_ZeroFlagRule : gives (exec (.add 2 3 3) (idle [])) (fun t => t.status.ecode == 0 && t.value 2 == 0) = true ∧
    (Instr.add 2 3 3).dest = some 2 ∧ (Instr.cmp 0 1).dest = none ∧
    gives (exec (.sub 2 0 1) (idle [])) (fun t => t.status.ecode != 0) = true := by decide

/-- A completion and a reset that change Z. -/
theorem witness_ZeroFlagRule_step : let s := { busy [.engine] with pend := some ⟨.sub 2 0 0, ⟨5, 5, 5⟩⟩ }
    gives (step s) (fun t => t.status.z != s.status.z) = true ∧
    gives (step { idle [.reset] with status := { Status.reset with z := true } }) (fun t => t.status.z == false) = true := by
  decide

theorem witness_CarryFlagRule : gives (exec (.add 2 0 1) (machine 2 [(0, 0xFFFFFFFF), (1, 1)]))
      (fun t => t.status.ecode == 0 && t.status.cy) = true ∧ (Instr.mul 2 0 1).dest = some 2 ∧
    gives (exec (.mul 2 0 1) (idle [])) (fun t => t.status.ecode == 0) = true ∧ (Instr.nop).dest = none ∧
    gives (exec (.divr 2 0 3) (idle [])) (fun t => t.status.ecode != 0) = true := by decide

theorem witness_CmpFieldWrittenOnlyByCmp : let s := { busy [.engine] with pend := some ⟨.cmp 0 1, ⟨5, 7, 5⟩⟩ }
    s.cfg.valid = true ∧ s.status.busy = true ∧ s.pend = some ⟨.cmp 0 1, ⟨5, 7, 5⟩⟩ ∧ s.events.head? = some .engine ∧
    gives (step s) (fun t => t.status.cmp != s.status.cmp) = true := by decide

/-- A change by each of the writers: the completion, a host write to the last window word, one to VCLR, a reset. -/
theorem witness_RegisterChangesOnlyByItsWriters :
    gives (step (busy [])) (fun t => t.words 2 != (busy []).words 2) = true ∧
    gives (step (idle [wr (cfgOf 4) 0x80C 9])) (fun t => t.words 0 != (idle []).words 0) = true ∧
    gives (step (idle [wr (cfgOf 4) 0x020 1])) (fun t => t.words 0 != (idle []).words 0) = true ∧
    gives (step (idle [.reset])) (fun t => t.words 1 != (idle []).words 1) = true := by decide

theorem witness_InterruptLevel : gives (exec .nop (idle [])) (fun t => t.irq == false) = true ∧ (idle []).cfg.valid = true ∧
    (idle [wr (cfgOf 4) 0x00C 2]).events = wr (idle []).cfg 0x00C 2 :: [] ∧ (2 : Word).getLsbD 1 = true ∧
    (idle [wr (cfgOf 4) 0x010 0]).events = wr (idle []).cfg 0x010 0 :: [] ∧ (0 : Word).getLsbD 0 = false ∧
    (idle []).status.busy = false ∧ (idle [wr (cfgOf 4) 0x008 0x1021]).events = wr (idle []).cfg 0x008 0x1021 :: [] ∧
    decodeWord 0x1021 = .ok (.add 2 0 1) ∧ Instr.add 2 0 1 ≠ .nop ∧ (busy [.reset]).events = .reset :: [] := by decide

theorem witness_StatusRegister : (busy []).cfg.valid = true ∧
    (busy [wr (cfgOf 4) 0x00C 0xFFFFFFFF]).events = wr (busy []).cfg 0x00C 0xFFFFFFFF :: [] := by decide

/-- A narrow access at the first offset, a misaligned one at the last byte, and a legal one at the last word. -/
theorem witness_OnlyAlignedWordAccesses : (idle []).cfg.valid = true ∧ (0xFFF : Nat) < 4096 ∧
    (idle [.host ⟨.read, 0x1000, 1⟩]).events = .host ⟨.read, (idle []).cfg.base + 0, 1⟩ :: [] ∧
    (idle [.host ⟨.write 3, 0x1FFF, 4⟩]).events = .host ⟨.write 3, (idle []).cfg.base + 0xFFF, 4⟩ :: [] ∧ 0xFFF % 4 ≠ 0 ∧
    (idle [.host ⟨.read, 0x1FFC, 4⟩]).events = .host ⟨.read, (idle []).cfg.base + 0xFFC, 4⟩ :: [] ∧ 0xFFC % 4 = 0 := by decide

theorem witness_ReadsHaveNoSideEffect : (busy []).cfg.valid = true ∧ (0xFFC : Nat) < 4096 ∧ 0xFFC % 4 = 0 ∧
    (busy [rd (cfgOf 4) 0xFFC]).events = rd (busy []).cfg 0xFFC :: [] := by decide

/-- Reserved offsets at both ends of the gap, and the window's last and first reserved words for `MAXW = 4`. -/
theorem witness_RegisterMapReads : (idle []).cfg.valid = true ∧ (idle []).Sized ∧ (0x024 : Nat) < 0x800 ∧ (0x7FC : Nat) < 0x800 ∧
    3 < (idle []).cfg.maxw ∧ (idle []).cfg.maxw ≤ 4 :=
  ⟨by decide, idle_sized [], by decide, by decide, by decide, by decide⟩

theorem witness_ReservedOffsetsIgnoreWrites : (busy []).cfg.valid = true ∧
    (busy [wr (cfgOf 4) 0x024 1]).events = wr (busy []).cfg 0x024 1 :: [] ∧
    (busy [rd (cfgOf 4) 0x7FC]).events = rd (busy []).cfg 0x7FC :: [] ∧ 0x800 + 4 * (busy []).cfg.maxw ≤ 0x810 ∧
    (busy [wr (cfgOf 4) 0x810 1]).events = wr (busy []).cfg 0x810 1 :: [] ∧
    (busy [wr (cfgOf 4) 0x01C 1]).events = wr (busy []).cfg 0x01C 1 :: [] := by decide

theorem witness_WindowWriteThenRead : (idle []).cfg.valid = true ∧ (idle []).Sized ∧ (idle []).status.busy = false ∧
    3 < (idle []).cfg.maxw ∧ (idle [wr (cfgOf 4) 0x80C 9]).events = wr (idle []).cfg (0x800 + 4 * 3) 9 :: [] :=
  ⟨by decide, idle_sized [], rfl, by decide, by decide⟩

theorem witness_VclrClearsSelected : (idle []).cfg.valid = true ∧
    (idle [wr (cfgOf 4) 0x020 3]).events = wr (idle []).cfg 0x020 3 :: [] ∧ (3 : Word).getLsbD 0 = true ∧
    (idle []).status.busy = false ∧ (busy [wr (cfgOf 4) 0x020 3]).events = wr (busy []).cfg 0x020 3 :: [] ∧
    (busy []).status.busy = true ∧ (2 : Word).getLsbD 0 = false := by decide

theorem witness_SelAndCtrlAreWritable : (idle []).cfg.valid = true ∧
    (idle [wr (cfgOf 4) 0x014 0xFFFFFFFF]).events = wr (idle []).cfg 0x014 0xFFFFFFFF :: [] ∧
    (busy [wr (cfgOf 4) 0x010 0xFFFFFFFF]).events = wr (busy []).cfg 0x010 0xFFFFFFFF :: [] := by decide

theorem witness_ByteAndWordOrder : 0x004 % 4 = 0 ∧ (idle []).Sized := ⟨rfl, idle_sized []⟩

/-- A value at a power of two, where the two lengths step. -/
theorem witness_LengthsAreLeast : bitLen 0xFFFFFFFF = 32 ∧ wordLen 0xFFFFFFFF = 1 ∧ bitLen 0x100000000 = 33 ∧
    wordLen 0x100000000 = 2 ∧ 0xFFFFFFFF < 2 ^ 32 := by decide

theorem witness_WrvLoadsRegister : (idle []).cfg.valid = true ∧ (idle []).Sized ∧ (idle []).status.busy = false ∧
    0x1_00000002 < 2 ^ (32 * (idle []).cfg.maxw) ∧
    (idle (wrv (cfgOf 4) 3 0x1_00000002)).events = wrv (idle []).cfg 3 0x1_00000002 :=
  ⟨by decide, idle_sized [], rfl, by decide, by decide⟩

theorem witness_ModmulExpansionRuns : (idle []).cfg.valid = true ∧ (idle []).Sized ∧ (idle []).status.busy = false ∧
    (idle []).pend = none ∧ (Pseudo.modmul 2 0 0 1).wf = true ∧ (idle []).value 1 ≠ 0 ∧
    (idle []).value 0 * (idle []).value 0 < 2 ^ (32 * (idle []).cfg.maxw) ∧
    (idle (issue (cfgOf 4) (expandPseudo (.modmul 2 0 0 1)))).events = issue (idle []).cfg (expandPseudo (.modmul 2 0 0 1)) :=
  ⟨by decide, idle_sized [], rfl, rfl, by decide, by decide, by decide, by decide⟩

theorem witness_ResetSetsEveryField : (busy []).cfg.valid = true ∧ (busy [.reset]).events = .reset :: [] := by decide

/-- Both ends of MAXW's range. -/
theorem witness_ResetMeetsInvariant : (cfgOf 1).valid = true ∧ (cfgOf 512).valid = true := by decide

theorem witness_StepKeepsInvariant : (busy [.engine]).Inv ∧ gives (step (busy [.engine])) (fun _ => true) = true :=
  ⟨busy_inv _, by decide⟩

theorem witness_ParametersAreFixed : gives (step (busy [.reset])) (fun _ => true) = true ∧
    ({ idle [] with cfg := cfgOf 513 } : State).cfg.valid = false := by decide

theorem witness_OnlyBadAccessesStop : (idle [.host ⟨.read, 0xFFF, 4⟩]).cfg.valid = true ∧
    gives (step (idle [.host ⟨.read, 0xFFF, 4⟩])) (fun _ => true) = false := by decide

theorem witness_SafeAccessesDoNotDisturb : (busy []).cfg.valid = true ∧ (busy []).status.busy = true ∧
    (busy []).pend = some ⟨.add 2 0 1, ⟨5, 7, 5⟩⟩ ∧ (0x014 : Nat) < 4096 ∧ 0x014 % 4 = 0 ∧
    safeWhileBusy (busy []).cfg.maxw 0x014 (.write 2) = true ∧ safeWhileBusy (busy []).cfg.maxw 0x80C .read = true ∧
    safeWhileBusy (busy []).cfg.maxw 0x810 (.write 2) = true ∧
    (busy [wr (cfgOf 4) 0x014 2]).events = .host ⟨.write 2, (busy []).cfg.base + 0x014, 4⟩ :: [] := by decide

theorem witness_ReadingHostSeesCompletion : (busy []).cfg.valid = true ∧ (busy []).status.busy = true ∧
    (busy []).pend = some ⟨.add 2 0 1, ⟨5, 7, 5⟩⟩ ∧ Instr.add 2 0 1 ≠ .nop ∧
    (∀ off ∈ [0x00C, 0xFFC], off < 4096 ∧ off % 4 = 0) ∧
    (busy ([0x00C, 0xFFC].map (rd (cfgOf 4)))).events = [0x00C, 0xFFC].map (rd (busy []).cfg) := by decide

theorem witness_OldWordUntilCompletion : let s := { busy [rd (cfgOf 4) 0x80C, .engine, rd (cfgOf 4) 0x80C] with sel := 2 }
    s.cfg.valid = true ∧ s.status.busy = true ∧ s.pend = some ⟨.add 2 0 1, ⟨5, 7, 5⟩⟩ ∧ Instr.add 2 0 1 ≠ .nop ∧
    (Instr.add 2 0 1).dest = some s.sel ∧ 3 < s.cfg.maxw ∧
    s.events = [rd s.cfg (0x800 + 4 * 3), .engine, rd s.cfg (0x800 + 4 * 3)] := by decide

theorem witness_SubtractorDatapathComputesDifference : (0x1_00000000 : Nat) ≤ 0x1_00000000 := by decide

/-- The least and the greatest one-word divisor. -/
theorem witness_SingleWordDivisionIsExact : wordLen 1 = 1 ∧ wordLen 0xFFFFFFFF = 1 := by decide

/-- The least two-word divisor. -/
theorem witness_KnuthDivisionIsExact : 2 ≤ wordLen 0x1_00000000 := by decide

theorem witness_DivisionEngineIsExact : (1 : Nat) ≠ 0 ∧ divideEngine .remainder 7 0 = none := by decide

theorem witness_PowModDatapathComputesPower : (1 : Nat) ≠ 0 ∧ powMod 5 1 1 = 0 := by decide

end Sys2Proof.Tests
end

section
/-! The statements of 00_scope.md: the two lengths and the normalized word list (R12 to R14), and the parameters no step
changes (R9). -/

namespace Sys2Proof.Machine

/-! ### Lengths (R13, R14) -/

/-- R14: the bit length is 0 for 0 only. -/
theorem bitLen_eq_zero_iff {v : Nat} : bitLen v = 0 ↔ v = 0 := by
  rw [← Nat.le_zero, bitLen_le_iff, pow_zero, Nat.lt_one_iff]

/-- R13: the most significant word of a nonzero natural's normalized list is not 0.  Each word but the last leaves the
question to the quotient by the radix, which is why the default `d` is arbitrary. -/
theorem getLastD_mag_ne_zero {v : Nat} (h : v ≠ 0) (d : Word) : (mag v).getLastD d ≠ 0 := by
  induction v using Nat.strong_induction_on generalizing d with
  | _ v ih =>
    rw [mag_succ h, List.getLastD_cons]
    by_cases hq : v / radix = 0
    · have hlt : v < radix := (Nat.div_eq_zero_iff_lt (by decide)).1 hq
      rw [hq, mag_zero, List.getLastD_nil]
      intro h0
      have hmod : v % radix = 0 := by simpa [radix_eq] using congrArg BitVec.toNat h0
      exact h (by rwa [Nat.mod_eq_of_lt hlt] at hmod)
    · exact ih _ (Nat.div_lt_self (Nat.pos_of_ne_zero h) (by decide)) hq _

/-! ### No step writes the parameters (R9) -/

@[simp] theorem State.complete_cfg (s : State) (r : CmdResult) : (s.complete r).cfg = s.cfg := by
  cases r with
  | wrote rd x cy => rfl
  | compared code => rfl
  | failed e => rfl

theorem exec_keeps_cfg {i : Instr} {s t : State} (h : exec i s = .next t) : t.cfg = s.cfg := by
  by_cases hn : i = .nop
  · subst hn; cases h; rfl
  · rw [exec_eq_complete s hn] at h
    cases h
    exact s.complete_cfg _

theorem engineStep_keeps_cfg {s t : State} (h : engineStep s = .next t) : t.cfg = s.cfg := by
  rcases engineStep_cases s with ⟨p, _, _, he⟩ | he
  · rw [he] at h; exact exec_keeps_cfg h
  · rw [he] at h; cases h; rfl

theorem accept_keeps_cfg {s t : State} {w : Word} (h : s.accept w = .next t) : t.cfg = s.cfg := by
  rcases accept_cases s w with ⟨_, he⟩ | ⟨i, _, _, he⟩ | ⟨_, _, he⟩
  · rw [he] at h; exact (exec_keeps_cfg h :)
  · rw [he] at h; cases h; rfl
  · rw [he] at h; cases h; rfl

theorem writePort_keeps_cfg {s t : State} {w : Word} {p : Port} (h : s.writePort w p = .next t) : t.cfg = s.cfg := by
  cases p with
  | cmd =>
    simp only [State.writePort] at h
    split at h
    · cases h; rfl
    · exact accept_keeps_cfg h
  | vclr => cases h; split_ifs <;> rfl
  | win k => cases h; split_ifs <;> rfl
  | id | config | status | ctrl | sel | len | bitlen | reserved => cases h; rfl

theorem hostStep_keeps_cfg {a : Access} {s t : State} (h : hostStep a s = .next t) : t.cfg = s.cfg := by
  obtain ⟨off, _, _, _, ⟨_, rfl⟩ | ⟨w, _, hw⟩⟩ := hostStep_next_cases h
  · rfl
  · exact (writePort_keeps_cfg hw :)

/-- R9: each of the three kinds of step keeps the parameters. -/
theorem step_keeps_cfg {s t : State} (h : step s = .next t) : t.cfg = s.cfg := by
  obtain ⟨_, ⟨_, he⟩ | ⟨es, _, he⟩ | ⟨es, _, rfl⟩ | ⟨a, es, _, he⟩⟩ := step_next_cases h
  · exact engineStep_keeps_cfg he
  · exact (engineStep_keeps_cfg he :)
  · rfl
  · exact (hostStep_keeps_cfg he :)

/-- U15, R50: parameters that are no BNCORE configuration are refused by name. -/
theorem step_refuses_of_invalid {s : State} (h : s.cfg.valid = false) : step s = .refused (.badConfiguration s.cfg) := by
  simp [step, h]

end Sys2Proof.Machine

namespace Sys2Proof

open Machine

/-- Settles O42: `bitLen_le_iff` and `wordLen_le_iff` say that each length is the least, and the words are those
`wordsOf` writes. -/
theorem lengthsAreLeast : Obligations.LengthsAreLeast := fun v =>
  ⟨bitLen_eq_zero_iff, lt_pow_bitLen v, fun _ => bitLen_le_iff.2, wordLen_le_iff.1 le_rfl, fun _ => wordLen_le_iff.2,
    rfl, val_mag v, length_mag v, fun h => getLastD_mag_ne_zero h 0, fun _ => getD_wordsOf v⟩

/-- Settles O48, by the cases of a step that answers a next state and the configuration test before it. -/
theorem parametersAreFixed : Obligations.ParametersAreFixed :=
  ⟨fun _ _ => step_keeps_cfg, fun _ => step_refuses_of_invalid⟩

end Sys2Proof
end

section
/-! Proofs for 10_state.md, the layer the statements share: what one step does to the state, what a command's completion
does, and the fields of a command word that acceptance captures. -/

namespace Sys2Proof.Machine

/-! ### What a step does (R20) -/

/-- R20, with what each kind of step does to the state: a reset; the engine's completion of the pending command; a step that
takes its input and at most answers a read; or a host write at an aligned offset. -/
theorem step_effect_cases {s t : State} (h : step s = .next t) :
    (s.events.head? = some .reset ∧ t = { State.resetWith s.cfg with events := s.events.tail }) ∨
    (∃ p, (s.events = [] ∨ s.events.head? = some .engine) ∧ s.status.busy = true ∧ s.pend = some p ∧
      exec p.instr { s with events := s.events.tail } = .next t) ∨
    (∃ x, t = { s with events := s.events.tail, reply := x }) ∨
    (∃ off w, s.events.head? = some (wr s.cfg off w) ∧ off % 4 = 0 ∧
      State.memWrite { s with events := s.events.tail, reply := none } off w = .next t) := by
  have engine (hev : s.events = [] ∨ s.events.head? = some .engine)
      (he : engineStep { s with events := s.events.tail } = .next t) :
      (∃ p, (s.events = [] ∨ s.events.head? = some .engine) ∧ s.status.busy = true ∧ s.pend = some p ∧
        exec p.instr { s with events := s.events.tail } = .next t) ∨
      (∃ x, t = { s with events := s.events.tail, reply := x }) := by
    rcases engineStep_cases { s with events := s.events.tail } with ⟨p, hb, hp, hx⟩ | hx
    · exact .inl ⟨p, hev, hb, hp, hx ▸ he⟩
    · rw [hx] at he
      cases he
      exact .inr ⟨s.reply, rfl⟩
  obtain ⟨_, ⟨hev, he⟩ | ⟨es, hev, he⟩ | ⟨es, hev, rfl⟩ | ⟨a, es, hev, ha⟩⟩ := step_next_cases h
  · have hs : ({ s with events := s.events.tail } : State) = s := by rw [hev, List.tail_nil, ← hev]
    exact .inr ((engine (.inl hev) (by rw [hs]; exact he)).imp id .inl)
  · exact .inr ((engine (.inr (by rw [hev]; rfl)) (by rw [hev]; exact he)).imp id .inl)
  · exact .inl ⟨by rw [hev]; rfl, by rw [hev]; rfl⟩
  · obtain ⟨off, ho, hal, hw, ⟨_, rfl⟩ | ⟨w, hop, hm⟩⟩ := hostStep_next_cases ha
    · exact .inr (.inr (.inl ⟨_, by rw [hev]; rfl⟩))
    · refine .inr (.inr (.inr ⟨off, w, ?_, hal, by rw [hev]; exact hm⟩))
      obtain ⟨op, addr, width⟩ := a
      have haddr : addr = s.cfg.base + off := by
        simp only [offsetOf] at ho
        split_ifs at ho
        cases ho
        omega
      simp only at hop hw
      subst hop hw haddr
      rw [hev]; rfl

/-! ### What a completion does (R40) -/

/-- The four ways a command completes: with a value for its destination (R24, R28, R29), with an error (R135), as a
comparison (R98), or as NOP (R90). -/
inductive Completion (i : Instr) (s t : State) : Prop where
  | wrote (r : RegIdx) (x : Nat) (c : Bool) (dest : i.dest = some r)
      (result : resultOf i s.cfg.maxw (s.operands i) = .wrote r x c) (h : Wrote r x (zeroFlag x) c s t)
  | failed (e : CmdError) (result : resultOf i s.cfg.maxw (s.operands i) = .failed e) (h : Failed e.code s t)
  | compared (ra rb : RegIdx) (hi : i = .cmp ra rb)
      (ht : t = s.complete (.compared (cmpCode (s.operands i).a (s.operands i).b)))
  | nop (hi : i = .nop) (ht : t = { s with status := { s.status with done := true, err := false, ecode := 0 } })

/-- Every command answers a next state, by one of the four completions (R40, R160). -/
theorem exec_completion (i : Instr) (s : State) : ∃ t, exec i s = .next t ∧ Completion i s t := by
  by_cases hn : i = .nop
  · exact ⟨_, by subst hn; rfl, .nop hn rfl⟩
  refine ⟨_, exec_eq_complete s hn, ?_⟩
  rcases resultOf_cases i s.cfg.maxw (s.operands i) with ⟨r, x, c, hd, hx, hr⟩ | ⟨e, hr⟩ | ⟨hd, _⟩
  · rw [hr]
    exact .wrote r x c hd hr (complete_wrote s r c hx)
  · rw [hr]
    exact .failed e hr (complete_failed s e)
  · cases i with
    | nop => exact absurd rfl hn
    | cmp ra rb => exact .compared ra rb rfl rfl
    | add | sub | mul | divq | divr | powmod => cases hd

theorem completion_of_exec {i : Instr} {s t : State} (h : exec i s = .next t) : Completion i s t := by
  obtain ⟨u, hu, hc⟩ := exec_completion i s
  rw [hu] at h
  cases h
  exact hc

namespace Completion

variable {i : Instr} {s t : State}

/-- R160, R24: a completion changes no register but the destination, and none of the fields of the frame. -/
theorem frame (h : Completion i s t) : CommandFrame i.dest s t := by
  cases h with
  | wrote r x c hd _ hw => exact hd ▸ hw.frame
  | failed e _ hf => exact { hf.frame with regs := fun r _ => hf.frame.regs r nofun }
  | compared ra rb _ ht => subst ht; constructor <;> intros <;> rfl
  | nop _ ht => subst ht; constructor <;> intros <;> rfl

theorem done (h : Completion i s t) : t.status.done = true := by
  cases h with
  | wrote r x c _ _ hw => exact hw.completed.done
  | failed e _ hf => exact hf.completed.done
  | compared ra rb _ ht => subst ht; rfl
  | nop _ ht => subst ht; rfl

/-- R40: the engine's completion, of any command but NOP, ends the pending command. -/
theorem completed (h : Completion i s t) (hn : i ≠ .nop) : Completed t.status.ecode t := by
  cases h with
  | wrote r x c _ _ hw => rw [hw.completed.ecode]; exact hw.completed
  | failed e _ hf => rw [hf.completed.ecode]; exact hf.completed
  | compared ra rb _ ht => subst ht; exact ⟨rfl, rfl, rfl, rfl, rfl⟩
  | nop hi _ => exact absurd hi hn

/-- R24, R28, R29: a successful completion of a command with a destination writes its result and the flags of the result. -/
theorem wrote_of_ecode (h : Completion i s t) {r : RegIdx} (hd : i.dest = some r) (he : t.status.ecode = 0) :
    ∃ x c, resultOf i s.cfg.maxw (s.operands i) = .wrote r x c ∧ Wrote r x (zeroFlag x) c s t := by
  cases h with
  | wrote r' x c hd' hr hw =>
    obtain rfl : r' = r := Option.some.inj (hd'.symm.trans hd)
    exact ⟨x, c, hr, hw⟩
  | failed e _ hf => exact absurd (hf.completed.ecode.symm.trans he) e.code_ne_zero
  | compared ra rb hi _ => subst hi; cases hd
  | nop hi _ => subst hi; cases hd

/-- R28, R29: without a destination, and with an error, Z and CY are as before. -/
theorem flags_kept (h : Completion i s t) (hk : i.dest = none ∨ t.status.ecode ≠ 0) :
    t.status.z = s.status.z ∧ t.status.cy = s.status.cy := by
  cases h with
  | wrote r x c hd _ hw =>
    rcases hk with hk | hk
    · cases hd.symm.trans hk
    · exact absurd hw.completed.ecode hk
  | failed e _ hf => exact ⟨hf.zflag, hf.cyflag⟩
  | compared ra rb _ ht => subst ht; exact ⟨rfl, rfl⟩
  | nop _ ht => subst ht; exact ⟨rfl, rfl⟩

/-- R135: with an error no register changes, the destination included. -/
theorem words_kept (h : Completion i s t) {r : RegIdx} (hk : i.dest ≠ some r ∨ t.status.ecode ≠ 0) :
    t.words r = s.words r := by
  by_cases hd : i.dest = some r
  · have he : t.status.ecode ≠ 0 := hk.resolve_left (fun h => h hd)
    cases h with
    | wrote r' x c _ _ hw => exact absurd hw.completed.ecode he
    | failed e _ hf => exact hf.frame.regs r nofun
    | compared ra rb hi _ => subst hi; cases hd
    | nop hi _ => subst hi; cases hd
  · exact h.frame.regs r hd

/-- R30: no command but CMP writes STATUS.CMP. -/
theorem cmp_kept (h : Completion i s t) (hi : ∀ ra rb, i ≠ .cmp ra rb) : t.status.cmp = s.status.cmp := by
  cases h with
  | wrote r x c _ _ hw => exact hw.cmp
  | failed e _ hf => exact hf.cmp
  | compared ra rb hc _ => exact absurd hc (hi ra rb)
  | nop _ ht => subst ht; rfl

/-- R22: a completion keeps every register `MAXW` words long. -/
theorem sized (h : Completion i s t) (hs : s.Sized) : t.Sized := by
  have hcfg := h.frame.cfg
  intro r
  by_cases hk : i.dest ≠ some r ∨ t.status.ecode ≠ 0
  · rw [h.words_kept hk, hcfg, hs r]
  · push Not at hk
    obtain ⟨x, c, _, hw⟩ := h.wrote_of_ecode hk.1 hk.2
    rw [hw.words, hcfg, length_wordsOf]

end Completion

/-- A state that differs in the inputs to come and the bus data completes a command alike (R40). -/
theorem exec_with_inputs (i : Instr) (s : State) (es : List Event) (x : Option Word) :
    ∃ u, exec i s = .next u ∧ exec i { s with events := es, reply := x } = .next { u with events := es, reply := x } := by
  by_cases hn : i = .nop
  · subst hn; exact ⟨_, rfl, rfl⟩
  · refine ⟨_, exec_eq_complete s hn, ?_⟩
    rw [exec_eq_complete _ hn]
    change Host.Outcome.next (State.complete _ (resultOf i s.cfg.maxw (s.operands i))) = _
    cases resultOf i s.cfg.maxw (s.operands i) <;> rfl

end Sys2Proof.Machine
end

section
/-! Proofs for 10_state.md: every step keeps the invariant (R22, R27, R30, R38, R39, R43, R130), and the statements that
rest on it. -/

namespace Sys2Proof.Machine

/-! ### The codes a command can leave (R130) -/

theorem finish_failed {maxw x : Nat} {rd : RegIdx} {cy : Bool} {e : CmdError} (h : finish maxw rd x cy = .failed e) :
    e = .overflow ∧ 2 ^ (32 * maxw) ≤ x := by
  rcases finish_cases maxw rd x cy with ⟨_, hf⟩ | ⟨hx, hf⟩
  · cases hf.symm.trans h
  · cases hf.symm.trans h
    exact ⟨rfl, hx⟩

/-- R120, R122: every value of the square-and-multiply loop is its initial result or a remainder by the modulus. -/
theorem squareMultiply_lt {m B : Nat} (hm : 0 < m) (hB : m ≤ B) (bits : List Bool) {r : Nat} (hr : r < B) (b : Nat) :
    squareMultiply m bits r b < B := by
  induction bits generalizing r b with
  | nil => exact hr
  | cons bit bits ih =>
    refine ih ?_ _
    split
    · exact (Nat.mod_lt _ hm).trans_le hB
    · exact hr

theorem powMod_lt {a e m B : Nat} (hm : 0 < m) (hB : m ≤ B) (h1 : 1 < B) : powMod a e m < B :=
  squareMultiply_lt hm hB _ h1 _

theorem codeFits_zero {w : Word} {i : Instr} (hw : decodeWord w = .ok i) : codeFits w 0 := by
  cases i <;> simp [codeFits, hw]

/-- R130, R138: an error completion leaves a code its command can leave, when the operands are values of registers: what
SUB, DIVQ, DIVR and POWMOD compute is then too small to overflow. -/
theorem codeFits_failed {w : Word} {i : Instr} {maxw : Nat} {o : Snapshot} {e : CmdError} (hw : decodeWord w = .ok i)
    (h1 : 1 ≤ maxw) (ha : o.a < 2 ^ (32 * maxw)) (hc : o.c < 2 ^ (32 * maxw)) (hr : resultOf i maxw o = .failed e) :
    codeFits w e.code := by
  have fits {rd x cy} (hx : x < 2 ^ (32 * maxw)) (hf : finish maxw rd x cy = .failed e) : False := by
    have := (finish_failed hf).2
    omega
  have one_lt : 1 < 2 ^ (32 * maxw) := Nat.one_lt_two_pow (by omega)
  cases i with
  | nop => cases hr
  | cmp ra rb => cases hr
  | add rd ra rb | mul rd ra rb =>
    obtain ⟨rfl, _⟩ := finish_failed hr
    simp [codeFits, hw, CmdError.code]
  | sub rd ra rb =>
    simp only [resultOf] at hr
    split at hr
    · cases hr; simp [codeFits, hw, CmdError.code]
    · exact (fits ((Nat.sub_le _ _).trans_lt ha) hr).elim
  | divq rd ra rb =>
    simp only [resultOf] at hr
    split at hr
    · cases hr; simp [codeFits, hw, CmdError.code]
    · exact (fits ((Nat.div_le_self _ _).trans_lt ha) hr).elim
  | divr rd ra rb =>
    simp only [resultOf] at hr
    split at hr
    · cases hr; simp [codeFits, hw, CmdError.code]
    · exact (fits ((Nat.mod_le _ _).trans_lt ha) hr).elim
  | powmod rd ra rb rc =>
    simp only [resultOf] at hr
    split at hr
    · exact (fits one_lt hr).elim
    · split at hr
      · cases hr; simp [codeFits, hw, CmdError.code]
      · exact (fits (powMod_lt (by omega) hc.le one_lt) hr).elim

/-- R30: the comparison code is never 0b11. -/
theorem cmpCode_ne_three (a b : Nat) : cmpCode a b ≠ 0b11 := by
  unfold cmpCode
  split_ifs <;> decide

namespace State.Inv

variable {s t : State}

theorem one_le_maxw (h : s.Inv) : 1 ≤ s.cfg.maxw := by
  have hv := h.valid
  simp only [Config.valid, decide_eq_true_eq] at hv
  exact hv.1

theorem pend_none (h : s.Inv) (hb : s.status.busy = false) : s.pend = none := by
  rw [← Option.isNone_iff_eq_none, ← Option.not_isSome, ← h.busy_pend, hb]; rfl

/-- R39: in a state of the invariant the operands of the pending command, or of any command while none is pending, are the
operand registers' values. -/
theorem operands_eq_capture (h : s.Inv) {i : Instr} (hi : ∀ p, s.pend = some p → p.instr = i) :
    s.operands i = s.capture i := by
  unfold State.operands
  split
  · next p hp => rw [h.snapshot p hp, hi p hp]
  · rfl

/-! ### The invariant, by what a step leaves behind -/

/-- An idle state has the invariant when its registers are sized and STATUS.CMP, ERR and ECODE are legal. -/
theorem of_idle (valid : s.cfg.valid = true) (sized : s.Sized) (hb : s.status.busy = false) (hp : s.pend = none)
    (cmp : s.status.cmp ≠ 0b11) (err : s.status.err = decide (s.status.ecode ≠ 0))
    (code : codeFits s.cmdreg s.status.ecode) : s.Inv where
  valid := valid
  sized := sized
  busy_pend := by rw [hb, hp]; rfl
  cmp_legal := cmp
  err_code := err
  pending p h := by cases hp.symm.trans h
  snapshot p h := by cases hp.symm.trans h
  code _ := code

/-- The invariant does not speak of IE, SEL, Z, CY, the lost bits, the inputs and the bus data, and lets DONE be cleared. -/
theorem update_free (h : s.Inv) {done : Bool} (hd : done = true → s.status.done = true) (z cy cmdlost winlost ie : Bool)
    (sel : RegIdx) (es : List Event) (x : Option Word) :
    State.Inv { s with
      status := { s.status with done := done, z := z, cy := cy, cmdlost := cmdlost, winlost := winlost }
      ie := ie, sel := sel, events := es, reply := x } where
  valid := h.valid
  sized := h.sized
  busy_pend := h.busy_pend
  cmp_legal := h.cmp_legal
  err_code := h.err_code
  pending p hp := by
    obtain ⟨hn, hdec, hdone, hcode⟩ := h.pending p hp
    exact ⟨hn, hdec, Bool.eq_false_iff.2 fun e => Bool.false_ne_true (hdone.symm.trans (hd e)), hcode⟩
  snapshot := h.snapshot
  code := h.code

theorem with_inputs (h : s.Inv) (es : List Event) (x : Option Word) : State.Inv { s with events := es, reply := x } :=
  h.update_free (fun e => e) s.status.z s.status.cy s.status.cmdlost s.status.winlost s.ie s.sel es x

/-- R36, R37: while idle, writing `MAXW` words to a register keeps the invariant. -/
theorem setWords (h : s.Inv) (hb : s.status.busy = false) (r : RegIdx) {ws : List Word} (hl : ws.length = s.cfg.maxw) :
    (s.setWords r ws).Inv :=
  of_idle h.valid (h.sized.setWords r hl) hb (h.pend_none hb) h.cmp_legal h.err_code (h.code (h.pend_none hb))

/-- R38, R90, R131: the acceptance of any word keeps the invariant. -/
theorem accept (h : s.Inv) (hb : s.status.busy = false) {w : Word} (ha : s.accept w = .next t) : t.Inv := by
  rcases accept_cases s w with ⟨hdec, he⟩ | ⟨i, hdec, hn, he⟩ | ⟨e, hdec, he⟩ <;> cases he.symm.trans ha
  · exact of_idle h.valid h.sized hb (h.pend_none hb) h.cmp_legal rfl (codeFits_zero hdec)
  · exact
      { valid := h.valid, sized := h.sized, busy_pend := rfl, cmp_legal := h.cmp_legal, err_code := rfl
        pending := by rintro p ⟨⟩; exact ⟨hn, hdec, rfl, rfl⟩
        snapshot := by rintro p ⟨⟩; rfl
        code := nofun }
  · exact of_idle h.valid h.sized rfl rfl h.cmp_legal rfl (by
      show codeFits w 1
      simp [codeFits, hdec])

/-- R58: a host write to any register of the map keeps the invariant. -/
theorem writePort (h : s.Inv) {w : Word} {p : Port} (hw : s.writePort w p = .next t) : t.Inv := by
  have free {done : Bool} (hd : done = true → s.status.done = true) (cmdlost winlost ie : Bool) (sel : RegIdx) :=
    h.update_free hd s.status.z s.status.cy cmdlost winlost ie sel s.events s.reply
  have winlost : s.loseWin.Inv := free (fun e => e) s.status.cmdlost true s.ie s.sel
  cases p with
  | cmd =>
    simp only [State.writePort] at hw
    split at hw
    · cases hw
      exact free (fun e => e) true s.status.winlost s.ie s.sel
    · next hb => exact h.accept (by simpa using hb) hw
  | status =>
    cases hw
    exact free (fun e => (Bool.and_eq_true_iff.1 e).1) _ _ s.ie s.sel
  | ctrl => cases hw; exact free (fun e => e) s.status.cmdlost s.status.winlost _ s.sel
  | sel => cases hw; exact free (fun e => e) s.status.cmdlost s.status.winlost s.ie _
  | vclr =>
    cases hw
    split_ifs with _ hb
    · exact winlost
    · exact h.setWords (by simpa using hb) _ List.length_replicate
    · exact h
  | win k =>
    cases hw
    split_ifs with hb
    · exact winlost
    · exact h.setWords (by simpa using hb) _ (by rw [List.length_set, h.sized])
  | id | config | len | bitlen | reserved => cases hw; exact h

/-- R40, R130: the completion of the pending command keeps the invariant; that the snapshot equals the operand registers
bounds the operands, so the code is one the command can leave. -/
theorem complete (h : s.Inv) {p : Pending} (hp : s.pend = some p) (hx : exec p.instr s = .next t) : t.Inv := by
  obtain ⟨hn, hdec, _, _⟩ := h.pending p hp
  have hc := completion_of_exec hx
  have hdone := hc.completed hn
  have hfr := hc.frame
  refine of_idle (hfr.cfg ▸ h.valid) (hc.sized h.sized) hdone.busy hdone.pend ?_ hdone.err ?_
  · cases hc with
    | wrote r x c _ _ hw => exact hw.cmp ▸ h.cmp_legal
    | failed e _ hf => exact hf.cmp ▸ h.cmp_legal
    | compared ra rb _ ht => subst ht; exact cmpCode_ne_three _ _
    | nop hi _ => exact absurd hi hn
  · rw [hfr.cmdreg]
    cases hc with
    | wrote r x c _ _ hw => rw [hw.completed.ecode]; exact codeFits_zero hdec
    | failed e hr hf =>
      rw [hf.completed.ecode]
      have ho : s.operands p.instr = s.capture p.instr := h.operands_eq_capture (by rintro q hq; cases hp.symm.trans hq; rfl)
      rw [ho] at hr
      exact codeFits_failed hdec h.one_le_maxw (h.sized.value_lt _) (h.sized.value_lt _) hr
    | compared ra rb _ ht => subst ht; exact codeFits_zero hdec
    | nop hi _ => exact absurd hi hn

end State.Inv

/-- R150: the reset state of a valid configuration has the invariant. -/
theorem resetWith_inv {c : Config} (hv : c.valid = true) : (State.resetWith c).Inv :=
  .of_idle hv (resetWith_sized c) rfl rfl (by show (0 : BitVec 2) ≠ 3; decide) rfl
    (codeFits_zero (i := .nop) (by show decodeWord 0 = _; decide))

/-- Each of the four effects of a step keeps the invariant. -/
theorem step_keeps_inv {s t : State} (h : s.Inv) (hs : step s = .next t) : t.Inv := by
  rcases step_effect_cases hs with ⟨_, rfl⟩ | ⟨p, _, _, hp, hx⟩ | ⟨x, rfl⟩ | ⟨off, w, _, _, hw⟩
  · exact (resetWith_inv h.valid).with_inputs _ none
  · exact (h.with_inputs s.events.tail s.reply).complete hp hx
  · exact h.with_inputs _ x
  · exact (h.with_inputs _ none).writePort hw

end Sys2Proof.Machine

namespace Sys2Proof

open Machine

/-- Settles O47, by the four effects a step can have and one lemma for each. -/
theorem stepKeepsInvariant : Obligations.StepKeepsInvariant := fun _ _ => step_keeps_inv

end Sys2Proof
end

section
/-! Proofs for 10_state.md: acceptance of a command word (R38), dropping while BUSY (R39), the engine's turn (R40, R41), and
the model's loading form. -/

namespace Sys2Proof

/-! ### The fields of a legal word (R72, R80) -/

theorem decodeWord_ok {w : Word} {i : Instr} (h : decodeWord w = .ok i) :
    ∃ r ∈ opcodeTable, w &&& r.mask = r.pattern ∧ r.mnemonic.build w = i := by
  unfold decodeWord at h
  split at h
  · next r hr =>
    exact ⟨r, List.mem_of_find?_eq_some hr, by simpa [Row.selects] using List.find?_some hr, Except.ok.inj h⟩
  · cases h

/-- A field that a row's mask covers holds the row's pattern. -/
theorem extractLsb'_of_and_eq {w m p : Word} (h : w &&& m = p) (k : Nat) (hm : m.extractLsb' k 4 = BitVec.allOnes 4) :
    w.extractLsb' k 4 = p.extractLsb' k 4 := by
  rw [← h, BitVec.extractLsb'_and, hm, BitVec.and_allOnes]

/-- R38, R72: a legal word's RA, RB and RC are the command's operand fields, also where its format requires 0. -/
theorem fields_of_decodeWord {w : Word} {i : Instr} (h : decodeWord w = .ok i) :
    i.fields.ra = raField w ∧ i.fields.rb = rbField w ∧ i.fields.rc = rcField w := by
  obtain ⟨r, hr, hs, rfl⟩ := decodeWord_ok h
  have unused (k : Nat) (hm : r.mask.extractLsb' k 4 = BitVec.allOnes 4) :
      (r.pattern.extractLsb' k 4).toFin = (w.extractLsb' k 4).toFin :=
    congrArg BitVec.toFin (extractLsb'_of_and_eq hs k hm).symm
  simp only [opcodeTable, List.mem_cons, List.not_mem_nil, or_false] at hr
  rcases hr with rfl | rfl | rfl | rfl | rfl | rfl | rfl | rfl
  · exact ⟨unused 8 (by decide), unused 12 (by decide), unused 16 (by decide)⟩
  · exact ⟨rfl, rfl, unused 16 (by decide)⟩
  · exact ⟨rfl, rfl, unused 16 (by decide)⟩
  · exact ⟨rfl, rfl, unused 16 (by decide)⟩
  · exact ⟨rfl, rfl, unused 16 (by decide)⟩
  · exact ⟨rfl, rfl, unused 16 (by decide)⟩
  · exact ⟨rfl, rfl, rfl⟩
  · exact ⟨rfl, rfl, unused 16 (by decide)⟩

/-- R90: NOP has one word. -/
theorem eq_zero_of_decodeWord_nop {w : Word} (h : decodeWord w = .ok .nop) : w = 0 := by
  obtain ⟨r, hr, hs, hb⟩ := decodeWord_ok h
  simp only [opcodeTable, List.mem_cons, List.not_mem_nil, or_false] at hr
  rcases hr with rfl | rfl | rfl | rfl | rfl | rfl | rfl | rfl
  case inl => exact BitVec.and_allOnes.symm.trans hs
  all_goals cases hb

/-- R56: a word put together again from its four byte lanes. -/
theorem wordOfLanes_byteLane (w : Word) : wordOfLanes (byteLane w 0) (byteLane w 1) (byteLane w 2) (byteLane w 3) = w := by
  have join (k l : Nat) {n : Nat} (h : k = l + 8) :
      w.extractLsb' k n ++ w.extractLsb' l 8 = w.extractLsb' l (n + 8) :=
    BitVec.extractLsb'_append_extractLsb'_eq_extractLsb' h
  simp only [wordOfLanes, byteLane]
  rw [join (8 * 3) (8 * 2) rfl, join (8 * 2) (8 * 1) rfl, join (8 * 1) (8 * 0) rfl]
  exact BitVec.extractLsb'_eq_self

/-- The decoder reads a table word as the command word it stands for. -/
theorem decodeTableWord_eq_some_iff {n w : Nat} {i : Instr} :
    decodeTableWord n w = some i ↔ decodeWord (tableWord n w) = .ok i := by
  simp only [decodeTableWord, wordToBytes, decodeBytes, wordOfLanes_byteLane]
  cases decodeWord (tableWord n w) <;> simp

theorem exists_error_of_decodeTableWord {n w : Nat} (h : decodeTableWord n w = none) :
    ∃ e, decodeWord (tableWord n w) = .error e := by
  cases hd : decodeWord (tableWord n w) with
  | error e => exact ⟨e, rfl⟩
  | ok i => cases (decodeTableWord_eq_some_iff.2 hd).symm.trans h

end Sys2Proof

namespace Sys2Proof.Machine

/-! ### One host write, one engine turn -/

/-- The step of a host write to the register `p` of the map (R52, R58). -/
theorem step_wr_port {s : State} {off : Nat} {w : Word} {es : List Event} (p : Port) (hv : s.cfg.valid = true)
    (ho : off < 4096) (ha : off % 4 = 0) (hp : portAt s.cfg.maxw off = p) (he : s.events = wr s.cfg off w :: es) :
    step s = State.writePort { s with events := es, reply := none } w p := by
  rw [step_wr hv ho ha he, State.memWrite]
  exact congrArg _ hp

/-- The step of a host read of the register `p` of the map (R52, R57). -/
theorem step_rd_port {s : State} {off : Nat} {es : List Event} (p : Port) (hv : s.cfg.valid = true) (ho : off < 4096)
    (ha : off % 4 = 0) (hp : portAt s.cfg.maxw off = p) (he : s.events = rd s.cfg off :: es) :
    step s = .next { s with events := es, reply := some (s.readPort p) } := by
  rw [step_rd hv ho ha he, State.memRead, hp]

/-- R36, R52: the window lies in the aperture. -/
theorem win_offset_lt {c : Config} {k : Nat} (hv : c.valid = true) (hk : k < c.maxw) : 0x800 + 4 * k < 4096 := by
  simp only [Config.valid, decide_eq_true_eq] at hv
  omega

theorem accept_nop (s : State) {w : Word} (hd : decodeWord w = .ok .nop) : s.accept w = exec .nop (s.beginCommand w) := by
  simp [State.accept, hd]

theorem accept_engine (s : State) {w : Word} {i : Instr} (hd : decodeWord w = .ok i) (hn : i ≠ .nop) :
    s.accept w = .next ((s.beginCommand w).enqueue i) := by
  rcases accept_cases s w with ⟨hd', _⟩ | ⟨j, hd', _, ha⟩ | ⟨e, hd', _⟩
  · exact absurd (Except.ok.inj (hd.symm.trans hd')) hn
  · obtain rfl := Except.ok.inj (hd.symm.trans hd')
    exact ha
  · cases hd.symm.trans hd'

theorem accept_illegal (s : State) {w : Word} {e : DecodeError} (hd : decodeWord w = .error e) :
    s.accept w = .next ((s.beginCommand w).raise .illegalCmd) := by
  simp [State.accept, hd]

/-- R40, R41: the engine's turn, in the order of the inputs or when none is left, runs the pending command. -/
theorem step_engine {s : State} {p : Pending} (hv : s.cfg.valid = true)
    (hev : s.events = [] ∨ s.events.head? = some .engine) (hb : s.status.busy = true) (hp : s.pend = some p) :
    step s = exec p.instr { s with events := s.events.tail } := by
  obtain ⟨cfg, v, cmdreg, status, ie, sel, pend, events, reply⟩ := s
  simp only at hv hev hb hp
  subst hp
  rcases hev with rfl | hev
  · simp [step, hv, stepEvent, engineStep, hb]
  · obtain ⟨es, rfl⟩ := List.head?_eq_some_iff.1 hev
    simp [step, hv, stepEvent, engineStep, hb]

/-! ### Host writes to CMD, WIN and VCLR (R36, R37, R39) -/

theorem writePort_cmd_busy {s : State} {w : Word} (hb : s.status.busy = true) :
    s.writePort w .cmd = .next s.loseCmd := by
  simp [State.writePort, hb]

theorem writePort_cmd_idle {s : State} {w : Word} (hb : s.status.busy = false) : s.writePort w .cmd = s.accept w := by
  simp [State.writePort, hb]

theorem writePort_win_busy {s : State} {w : Word} {k : Nat} (hb : s.status.busy = true) :
    s.writePort w (.win k) = .next s.loseWin := by
  simp [State.writePort, hb]

theorem writePort_win_idle {s : State} {w : Word} {k : Nat} (hb : s.status.busy = false) :
    s.writePort w (.win k) = .next (s.setWord s.sel k w) := by
  simp [State.writePort, hb]

theorem writePort_vclr_busy {s : State} {w : Word} (hw : w.getLsbD 0 = true) (hb : s.status.busy = true) :
    s.writePort w .vclr = .next s.loseWin := by
  rw [State.writePort, if_pos hw, if_pos hb]

theorem writePort_vclr_idle {s : State} {w : Word} (hw : w.getLsbD 0 = true) (hb : s.status.busy = false) :
    s.writePort w .vclr = .next (s.clearReg s.sel) := by
  rw [State.writePort, if_pos hw, if_neg (Bool.not_eq_true _ ▸ hb)]

theorem writePort_vclr_zero {s : State} {w : Word} (hw : w.getLsbD 0 = false) : s.writePort w .vclr = .next s := by
  rw [State.writePort, if_neg (Bool.not_eq_true _ ▸ hw)]

/-- R39: while BUSY = 1 a write to any register of the map leaves the V registers, the pending command, CMDREG and BUSY. -/
theorem writePort_busy {s t : State} {w : Word} {p : Port} (hb : s.status.busy = true) (h : s.writePort w p = .next t) :
    t.v = s.v ∧ t.pend = s.pend ∧ t.cmdreg = s.cmdreg ∧ t.status.busy = true := by
  cases p with
  | cmd => cases (writePort_cmd_busy hb).symm.trans h; exact ⟨rfl, rfl, rfl, hb⟩
  | vclr =>
    by_cases hw : w.getLsbD 0 = true
    · cases (writePort_vclr_busy hw hb).symm.trans h; exact ⟨rfl, rfl, rfl, hb⟩
    · cases (writePort_vclr_zero (Bool.eq_false_iff.2 hw)).symm.trans h; exact ⟨rfl, rfl, rfl, hb⟩
  | win k => cases (writePort_win_busy hb).symm.trans h; exact ⟨rfl, rfl, rfl, hb⟩
  | id | config | status | ctrl | sel | len | bitlen | reserved => cases h; exact ⟨rfl, rfl, rfl, hb⟩

/-- R38: the step of a CMD write while BUSY = 0 is the acceptance of the word. -/
theorem step_cmdWrite_idle {s : State} {w : Word} {es : List Event} (hv : s.cfg.valid = true) (hb : s.status.busy = false)
    (he : s.events = cmdWrite s.cfg w :: es) : step s = State.accept { s with events := es, reply := none } w :=
  (step_wr_port .cmd hv (by decide) (by decide) rfl he).trans (writePort_cmd_idle hb)

/-! ### The loading form (log 8) -/

theorem loadCommand_engine (s : State) {w : Word} {i : Instr} (hd : decodeWord w = .ok i) (hn : i ≠ .nop) :
    s.loadCommand w =
      { (({ s with pend := none, status := { s.status with busy := false } } : State).beginCommand w).enqueue i with
        events := .engine :: s.events } := by
  cases i with
  | nop => exact absurd rfl hn
  | add | sub | mul | divq | divr | powmod | cmp => simp [State.loadCommand, hd]

/-- NOP and an illegal word are accepted in the step after the loading. -/
theorem step_loadCommand {s : State} {w : Word} (hv : s.cfg.valid = true)
    (hd : decodeWord w = .ok .nop ∨ ∃ e, decodeWord w = .error e) :
    step (s.loadCommand w) =
      State.accept { s with pend := none, status := { s.status with busy := false }, reply := none } w := by
  have hl : s.loadCommand w =
      { s with pend := none, status := { s.status with busy := false }, events := cmdWrite s.cfg w :: s.events } := by
    rcases hd with hd | ⟨e, hd⟩ <;> simp [State.loadCommand, hd]
  have hc : (s.loadCommand w).cfg = s.cfg := by rw [hl]
  rw [step_cmdWrite_idle (es := s.events) (by rw [hc, hv]) (by rw [hl]) (by rw [hl]), hl]

/-! ### Runs of reads (R57, R62) -/

theorem run_core_succ {s t : State} (n : Nat) (h : step s = .next t) :
    Host.Core.run core (n + 1) s = Host.Core.run core n t := by
  have e : core.step s = .next t := h
  simp [Host.Core.run, e]

/-- Host reads, one after another, change nothing but the inputs to come and the bus data. -/
theorem run_reads {s : State} (offs : List Nat) (n : Nat) (hv : s.cfg.valid = true)
    (ho : ∀ off ∈ offs, off < 4096 ∧ off % 4 = 0) (he : s.events = offs.map (rd s.cfg)) :
    ∃ x, Host.Core.run core (offs.length + n) s = Host.Core.run core n { s with events := [], reply := x } := by
  induction offs generalizing s with
  | nil => exact ⟨s.reply, by rw [← List.map_nil (f := rd s.cfg), ← he, List.length_nil, Nat.zero_add]⟩
  | cons off offs ih =>
    obtain ⟨hoff, hal⟩ := ho off List.mem_cons_self
    obtain ⟨x, hx⟩ := ih (s := { s with events := offs.map (rd s.cfg), reply := some (s.memRead off) }) hv
      (fun o hm => ho o (List.mem_cons_of_mem _ hm)) rfl
    rw [List.length_cons, Nat.succ_add, run_core_succ _ (step_rd hv hoff hal he)]
    exact ⟨x, hx⟩

end Sys2Proof.Machine

namespace Sys2Proof

open Machine

/-- Settles O7, by the three ends of an acceptance. -/
theorem acceptanceOfAnyWord : Obligations.AcceptanceOfAnyWord := by
  intro s w es hv hb hp he
  have hstep := step_cmdWrite_idle hv hb he
  rcases accept_cases { s with events := es, reply := none } w with ⟨hd, ha⟩ | ⟨i, hd, hn, ha⟩ | ⟨e, hd, ha⟩
  · refine ⟨_, hstep.trans ha, rfl, fun _ => ⟨hp, rfl⟩, ?_, ?_, rfl, rfl, rfl, rfl, rfl⟩
    · rintro ⟨e, h⟩
      cases hd.symm.trans h
    · intro i h hn
      exact absurd (Except.ok.inj (h.symm.trans hd)) hn
  · refine ⟨_, hstep.trans ha, rfl, ?_, ?_, ?_, rfl, rfl, rfl, rfl, rfl⟩
    · exact fun h => absurd (Except.ok.inj (hd.symm.trans h)) hn
    · rintro ⟨e, h⟩
      cases hd.symm.trans h
    · intro j h _
      obtain rfl := Except.ok.inj (hd.symm.trans h)
      obtain ⟨hra, hrb, hrc⟩ := fields_of_decodeWord hd
      rw [← hra, ← hrb, ← hrc]
      exact ⟨rfl, rfl⟩
  · refine ⟨_, hstep.trans ha, rfl, ?_, fun _ => ⟨rfl, ?_⟩, ?_, rfl, rfl, rfl, rfl, rfl⟩
    · exact fun h => by cases hd.symm.trans h
    · simp [State.raise, State.close, State.beginCommand, CmdError.code, hb]
    · exact fun i h => by cases hd.symm.trans h

/-- Settles O10: the three dropped writes and the three reads are single steps; any other access is a read or a port write,
which `writePort_busy` covers; the snapshot is the invariant's. -/
theorem busyDropsHostWrites : Obligations.BusyDropsHostWrites := by
  refine ⟨?_, ?_, ?_, ?_, ?_, ?_, ?_, fun s p hs hp => hs.snapshot p hp⟩
  · intro s w es hv hb he
    exact (step_wr_port .cmd hv (by decide) (by decide) rfl he).trans (writePort_cmd_busy hb)
  · intro s w k es hv hb hk he
    exact (step_wr_port (.win k) hv (win_offset_lt hv hk) (by omega) (portAt_win hk) he).trans (writePort_win_busy hb)
  · intro s w es hv hb hw he
    exact (step_wr_port .vclr hv (by decide) (by decide) rfl he).trans (writePort_vclr_busy hw hb)
  · intro s t a es hb he hs
    rcases step_effect_cases hs with ⟨hr, _⟩ | ⟨p, hev, _⟩ | ⟨x, rfl⟩ | ⟨off, w, _, _, hw⟩
    · simp [he] at hr
    · simp [he] at hev
    · exact ⟨rfl, rfl, rfl, hb⟩
    · exact writePort_busy (s := { s with events := s.events.tail, reply := none }) hb hw
  · intro s k es hv _ hk he
    exact step_rd_port (.win k) hv (win_offset_lt hv hk) (by omega) (portAt_win hk) he
  · intro s es hv _ he
    exact step_rd_port .len hv (by decide) (by decide) rfl he
  · intro s es hv _ he
    exact step_rd_port .bitlen hv (by decide) (by decide) rfl he

/-- Settles O11, by the acceptance of a word and the engine's turn. -/
theorem stepRunsDecodedCommand : Obligations.StepRunsDecodedCommand := by
  refine ⟨?_, ?_, ?_, ?_⟩
  · intro s w i es hv hb hd hn he
    exact ⟨_, (step_cmdWrite_idle hv hb he).trans (accept_engine _ hd hn), rfl, rfl,
      step_engine (p := ⟨i, s.capture i⟩) hv (.inr rfl) rfl rfl⟩
  · intro s es hv hb he
    have hd : decodeWord (encode .nop) = .ok .nop := by decide
    rw [step_cmdWrite_idle hv hb he, accept_nop _ hd]
    rfl
  · intro s p hv hb hp he
    rw [step_engine hv (.inl he) hb hp, he, List.tail_nil, ← he]
  · intro s es hv hb he
    simp [step, hv, stepEvent, he, engineStep, hb]

/-- Settles O12: the loading form leaves a command to the engine's turn, and NOP or an illegal word to a CMD write. -/
theorem fetchedWordRunsNext : Obligations.FetchedWordRunsNext := by
  refine ⟨?_, ?_, ?_⟩
  · intro s w i hv hd hn
    rw [decodeTableWord_eq_some_iff] at hd
    rw [State.withFetchWord, loadCommand_engine s hd hn]
    exact ⟨_, step_engine (p := ⟨i, s.capture i⟩) hv (.inr rfl) rfl rfl, rfl, rfl, rfl, rfl, rfl⟩
  · intro s w hv hd
    rw [decodeTableWord_eq_some_iff] at hd
    exact ⟨_, (step_loadCommand hv (.inl hd)).trans (accept_nop _ hd), rfl, rfl, rfl, eq_zero_of_decodeWord_nop hd⟩
  · intro s w hv hd
    obtain ⟨e, hd⟩ := exists_error_of_decodeTableWord hd
    exact ⟨_, (step_loadCommand hv (.inr ⟨e, hd⟩)).trans (accept_illegal _ hd), rfl, rfl, rfl, rfl, rfl⟩

/-- Settles O13: the two cases of `operands`, which the invariant's snapshot makes one. -/
theorem operandsAreTheSnapshot : Obligations.OperandsAreTheSnapshot := by
  refine ⟨?_, ?_, ?_⟩
  · intro s i p hp
    simp [State.operands, hp]
  · intro s i hp
    simp [State.operands, hp, State.capture]
  · exact fun s i hs hi => hs.operands_eq_capture hi

/-- Settles O51: the reads change only the inputs and the bus data, the next step is the engine's completion, and that
depends on neither. -/
theorem readingHostSeesCompletion : Obligations.ReadingHostSeesCompletion := by
  intro s p offs hv hb hp hn ho he
  obtain ⟨x, hrun⟩ := run_reads offs 1 hv ho he
  obtain ⟨u, hu, hu'⟩ := exec_with_inputs p.instr s [] x
  have hdone := (completion_of_exec hu).completed hn
  have hstep : step { s with events := [], reply := x } = .next { u with events := [], reply := x } :=
    (step_engine (s := { s with events := [], reply := x }) hv (.inl rfl) hb hp).trans hu'
  exact ⟨_, u, hrun.trans (run_core_succ 0 hstep), hu, rfl, rfl, hdone.busy, hdone.done, hdone.pend, rfl⟩

end Sys2Proof
end

section
/-! Proofs for 10_state.md: what completions write (R24, R28 to R30, R40), which steps write a flag or a V register, and the
writable registers of the map (R27, R34, R36, R37, R42). -/

namespace Sys2Proof.Machine

/-- R24: CMP is the one command of the engine without a destination. -/
theorem eq_cmp_of_dest_eq_none {i : Instr} (hd : i.dest = none) (hn : i ≠ .nop) : ∃ ra rb, i = .cmp ra rb := by
  cases i with
  | nop => exact absurd rfl hn
  | cmp ra rb => exact ⟨ra, rb, rfl⟩
  | add | sub | mul | divq | divr | powmod => cases hd

/-! ### The flags of a result (R28, R29) -/

theorem zeroFlag_eq_true_iff {x : Nat} : zeroFlag x = true ↔ x = 0 := decide_eq_true_iff

/-- R29: the result of ADD is the sum, with the carry flag of the operands. -/
theorem resultOf_add_wrote {rd ra rb r : RegIdx} {maxw x : Nat} {o : Snapshot} {c : Bool}
    (h : resultOf (.add rd ra rb) maxw o = .wrote r x c) : x = o.a + o.b ∧ c = carryFlag o.a o.b := by
  rcases finish_cases maxw rd (o.a + o.b) (carryFlag o.a o.b) with ⟨_, hf⟩ | ⟨_, hf⟩ <;> cases hf.symm.trans h
  exact ⟨rfl, rfl⟩

/-- R29: a command other than ADD that writes a register gives carry 0. -/
theorem resultOf_wrote_carry {i : Instr} {r : RegIdx} {maxw x : Nat} {o : Snapshot} {c : Bool}
    (hi : ∀ d a b, i ≠ .add d a b) (h : resultOf i maxw o = .wrote r x c) : c = false := by
  have carry {rd y} (hf : finish maxw rd y false = .wrote r x c) : c = false := by
    rcases finish_cases maxw rd y false with ⟨_, hf'⟩ | ⟨_, hf'⟩ <;> cases hf'.symm.trans hf
    rfl
  cases i with
  | nop => cases h
  | cmp ra rb => cases h
  | add rd ra rb => exact absurd rfl (hi rd ra rb)
  | mul rd ra rb => exact carry h
  | sub rd ra rb | divq rd ra rb | divr rd ra rb =>
    simp only [resultOf] at h
    split at h
    · cases h
    · exact carry h
  | powmod rd ra rb rc =>
    simp only [resultOf] at h
    split at h
    · exact carry h
    · split at h
      · cases h
      · exact carry h

/-! ### Steps and what they write -/

/-- R58: a host write and an idle turn keep Z, CY and CMP, so a step that changes one is a reset or the engine's completion. -/
theorem step_flags_cases {s t : State} (h : step s = .next t) :
    s.events.head? = some .reset ∨
    (∃ p, (s.events = [] ∨ s.events.head? = some .engine) ∧ s.status.busy = true ∧ s.pend = some p ∧
      Completion p.instr { s with events := s.events.tail } t) ∨
    (t.status.z = s.status.z ∧ t.status.cy = s.status.cy ∧ t.status.cmp = s.status.cmp) := by
  rcases step_effect_cases h with ⟨hr, _⟩ | ⟨p, hev, hb, hp, hx⟩ | ⟨x, rfl⟩ | ⟨off, w, _, _, hw⟩
  · exact .inl hr
  · exact .inr (.inl ⟨p, hev, hb, hp, completion_of_exec hx⟩)
  · exact .inr (.inr ⟨rfl, rfl, rfl⟩)
  · exact .inr (.inr (writePort_flags hw :))

/-! ### The registers of the map -/

/-- R27: the fields of the STATUS word, over the width its parts add up to. -/
theorem statusLayout (x : Status) {y : BitVec (18 + 1 + 1 + 2 + 1 + 1 + 4 + 1 + 1 + 1 + 1)}
    (hy : y = 0#18 ++ BitVec.ofBool x.winlost ++ BitVec.ofBool x.cmdlost ++ x.cmp ++ BitVec.ofBool x.cy
      ++ BitVec.ofBool x.z ++ x.ecode ++ 0#1 ++ BitVec.ofBool x.err ++ BitVec.ofBool x.done ++ BitVec.ofBool x.busy) :
    y.getLsbD 0 = x.busy ∧ y.getLsbD 1 = x.done ∧ y.getLsbD 2 = x.err ∧ y.getLsbD 3 = false ∧
    y.extractLsb' 4 4 = x.ecode ∧ y.getLsbD 8 = x.z ∧ y.getLsbD 9 = x.cy ∧ y.extractLsb' 10 2 = x.cmp ∧
    y.getLsbD 12 = x.cmdlost ∧ y.getLsbD 13 = x.winlost ∧ y.extractLsb' 14 18 = 0 := by
  subst hy
  simp (disch := decide) only [BitVec.getLsbD_append, BitVec.extractLsb'_append_eq_of_le,
    BitVec.extractLsb'_append_eq_of_add_le, BitVec.extractLsb'_eq_self, Nat.reduceLT, Nat.reduceSub, ↓reduceIte]
  simp

/-- R36: a read of WIN[k] is word `k` of the selected register. -/
theorem State.memRead_win {s : State} {k : Nat} (hk : k < s.cfg.maxw) : s.memRead (0x800 + 4 * k) = s.word s.sel k := by
  rw [State.memRead, portAt_win hk]; rfl

theorem State.Sized.with_inputs {s : State} (h : s.Sized) {es : List Event} {x : Option Word} :
    State.Sized { s with events := es, reply := x } := h

theorem State.word_setWord_self (s : State) (w : Word) {r : RegIdx} {k : Nat} (hk : k < (s.words r).length) :
    (s.setWord r k w).word r k = w := by
  simp [State.word, State.setWord, hk]

theorem State.word_setWord_ne (s : State) (r : RegIdx) (w : Word) {j k : Nat} (hj : j ≠ k) :
    (s.setWord r k w).word r j = s.word r j := by
  simp [State.word, State.setWord, List.getElem?_set_ne hj.symm]

@[simp] theorem val_replicate_zero (n : Nat) : val (List.replicate n 0) = 0 := by
  induction n with
  | zero => rfl
  | succ n ih => rw [List.replicate_succ, val_cons, ih]; rfl

end Sys2Proof.Machine

namespace Sys2Proof

open Machine

/-- Settles O23: the frame and DONE of each way to complete. -/
theorem everyCommandKeepsItsFrame : Obligations.EveryCommandKeepsItsFrame := by
  intro i s
  obtain ⟨t, ht, hc⟩ := exec_completion i s
  exact ⟨t, ht, hc.frame, hc.done⟩

/-- Settles O26: both states complete with the one result that the snapshot and the parameters give. -/
theorem snapshotDecidesResult : Obligations.SnapshotDecidesResult := by
  intro s s' p hcfg hp hp' hn
  have ho : s.operands p.instr = p.ops := by simp [State.operands, hp]
  have ho' : s'.operands p.instr = p.ops := by simp [State.operands, hp']
  have hx := exec_eq_complete s hn
  have hx' := exec_eq_complete s' hn
  rw [ho] at hx
  rw [ho', ← hcfg] at hx'
  refine ⟨_, _, hx, hx', ?_⟩
  rcases resultOf_cases p.instr s.cfg.maxw p.ops with ⟨r, x, c, hd, hlt, hr⟩ | ⟨e, hr⟩ | ⟨hnone, c, hr⟩
  · rw [hr]
    have hw := complete_wrote s r c hlt
    have hw' := complete_wrote s' r c (hcfg ▸ hlt)
    refine ⟨rfl, fun _ r' hr' => ?_, fun hnone => by cases hd.symm.trans hnone⟩
    obtain rfl := Option.some.inj (hd.symm.trans hr')
    exact ⟨by rw [hw.words, hw'.words, hcfg], rfl, rfl⟩
  · refine ⟨by rw [hr]; rfl, fun h => ?_, fun hnone => ?_⟩
    · rw [hr] at h
      exact absurd h (complete_failed_ecode_ne_zero s e)
    · obtain ⟨ra, rb, hi⟩ := eq_cmp_of_dest_eq_none hnone hn
      rw [hi] at hr
      cases hr
  · rw [hr]
    exact ⟨rfl, fun _ r hd => (by cases hnone.symm.trans hd), fun _ => rfl⟩

/-- Settles O28: Z of a completion that writes its destination and of one that does not, and the steps that change a flag. -/
theorem zeroFlagRule : Obligations.ZeroFlagRule := by
  refine ⟨fun i s => ?_, fun s t hs hz => ?_⟩
  · obtain ⟨t, ht, hc⟩ := exec_completion i s
    refine ⟨t, ht, fun r hd he => ?_, fun hk => (hc.flags_kept hk).1⟩
    obtain ⟨x, c, _, hw⟩ := hc.wrote_of_ecode hd he
    rw [hw.zflag, hw.value, zeroFlag_eq_true_iff]
  · rcases step_flags_cases hs with hr | ⟨p, hev, hb, hp, hc⟩ | ⟨hkeep, _⟩
    · exact .inl hr
    · have hk : ¬ (p.instr.dest = none ∨ t.status.ecode ≠ 0) := fun hk => hz (hc.flags_kept hk).1
      push Not at hk
      obtain ⟨r, hd⟩ := Option.ne_none_iff_exists'.1 hk.1
      exact .inr ⟨p, r, hb, hp, hd, hk.2, hev⟩
    · exact absurd hkeep hz

/-- Settles O29: a completion without error writes the result's own carry flag, which only ADD's can set. -/
theorem carryFlagRule : Obligations.CarryFlagRule := by
  intro i s
  obtain ⟨t, ht, hc⟩ := exec_completion i s
  refine ⟨t, ht, ?_, fun r hd hi he => ?_, fun hk => (hc.flags_kept hk).2⟩
  · rintro d a b rfl he
    obtain ⟨x, c, hr, hw⟩ := hc.wrote_of_ecode rfl he
    obtain ⟨rfl, rfl⟩ := resultOf_add_wrote hr
    rw [hw.cyflag, hw.value, carryFlag, decide_eq_true_iff]
  · obtain ⟨x, c, hr, hw⟩ := hc.wrote_of_ecode hd he
    rw [hw.cyflag, resultOf_wrote_carry hi hr]

/-- Settles O30: the engine's turn completes CMP with the code of its snapshot, and no other completion writes CMP. -/
theorem cmpFieldWrittenOnlyByCmp : Obligations.CmpFieldWrittenOnlyByCmp := by
  refine ⟨fun s p ra rb hv hb hp hi hev => ?_, fun s t hs hcmp => ?_⟩
  · have hstep := step_engine hv hev hb hp
    rw [hi] at hstep
    refine ⟨_, hstep, ?_⟩
    simp [State.complete, State.operands, hp, cmpCode]
  · rcases step_flags_cases hs with hr | ⟨p, hev, hb, hp, hc⟩ | ⟨_, _, hkeep⟩
    · exact .inl hr
    · have hk : ¬ ∀ ra rb, p.instr ≠ .cmp ra rb := fun hk => hcmp (hc.cmp_kept hk)
      push Not at hk
      obtain ⟨ra, rb, hi⟩ := hk
      exact .inr ⟨p, ra, rb, hb, hp, hi, hev⟩
    · exact absurd hkeep hcmp

/-- Settles O31, by the four effects of a step. -/
theorem registerChangesOnlyByItsWriters : Obligations.RegisterChangesOnlyByItsWriters := by
  intro s t r hs hne
  rcases step_effect_cases hs with ⟨hr, _⟩ | ⟨p, hev, hb, hp, hx⟩ | ⟨x, rfl⟩ | ⟨off, w, hev, hal, hw⟩
  · exact .inl hr
  · have hk : ¬ (p.instr.dest ≠ some r ∨ t.status.ecode ≠ 0) :=
      fun hk => hne ((completion_of_exec hx).words_kept hk)
    push Not at hk
    exact .inr (.inl ⟨p, hev, hb, hp, hk.1, hk.2⟩)
  · exact absurd rfl hne
  · obtain ⟨u, hu, hwords⟩ := writePort_words { s with events := s.events.tail, reply := none } w (portAt s.cfg.maxw off)
    obtain rfl := Host.Outcome.next.inj (hu.symm.trans hw)
    obtain ⟨hb, hsel, ⟨k, hport⟩ | ⟨hport, hbit⟩⟩ := hwords r hne
    · obtain ⟨rfl, hk⟩ := portAt_eq_win hport hal
      exact .inr (.inr (.inl ⟨k, w, hev, hk, hb, hsel⟩))
    · obtain rfl := portAt_eq_vclr hport
      exact .inr (.inr (.inr ⟨w, hev, hbit, hb, hsel⟩))

/-- Settles O33, by the layout of the STATUS word and the step of a write to it. -/
theorem statusRegister : Obligations.StatusRegister := by
  refine ⟨fun x => statusLayout x rfl, fun s w es hv he => ?_⟩
  refine ⟨_, step_wr_port .status hv (by decide) (by decide) rfl he, rfl, rfl, ?_, ?_, ?_⟩ <;>
    simp [Status.clearWritten]

/-- Settles O38: the step is one `setWord` of the selected register. -/
theorem windowWriteThenRead : Obligations.WindowWriteThenRead := by
  intro s k w es hv hsz hb hk he
  have hstep := step_wr_port (.win k) hv (win_offset_lt hv hk) (by omega) (portAt_win hk) he
  have hword : State.word (State.setWord { s with events := es, reply := none } s.sel k w) s.sel k = w :=
    State.word_setWord_self _ _ (by rw [hsz.with_inputs]; exact hk)
  have hread := State.memRead_win (s := State.setWord { s with events := es, reply := none } s.sel k w) hk
  exact ⟨_, hstep.trans (writePort_win_idle hb), rfl, hread.trans hword, hword,
    fun j hj => State.word_setWord_ne _ _ _ hj, fun r hr => State.words_setWords_ne _ _ hr.symm,
    hsz.with_inputs.setWord _ _ _⟩

/-- Settles O39: the four cases of a VCLR access. -/
theorem vclrClearsSelected : Obligations.VclrClearsSelected := by
  intro s w es hv he
  have hstep := step_wr_port .vclr hv (by decide) (by decide) rfl he
  refine ⟨rfl, fun hw hb => ?_, fun hw hb => ?_, fun hw => ?_⟩
  · have hwords : State.words (State.clearReg { s with events := es, reply := none } s.sel) s.sel =
        List.replicate s.cfg.maxw 0 := State.words_setWords_self _ _ _
    refine ⟨_, hstep.trans (writePort_vclr_idle hw hb), rfl, hwords, ?_, fun r hr => State.words_setWords_ne _ _ hr.symm⟩
    rw [State.value, hwords, val_replicate_zero]
  · exact hstep.trans (writePort_vclr_busy hw hb)
  · exact hstep.trans (writePort_vclr_zero hw)

/-- Settles O40: the steps of a write to SEL and to CTRL, and what their low bits read back as. -/
theorem selAndCtrlAreWritable : Obligations.SelAndCtrlAreWritable := by
  refine ⟨fun s w es hv he => ?_, fun s w es hv he => ?_⟩
  · have hsel : (w.extractLsb' 0 4).toFin.val = w.toNat % 16 := by simp
    refine ⟨_, step_wr_port .sel hv (by decide) (by decide) rfl he, rfl, hsel, ?_⟩
    show BitVec.ofNat 32 (w.extractLsb' 0 4).toFin.val = w &&& 0xF
    apply BitVec.eq_of_toNat_eq
    rw [hsel, BitVec.toNat_and]
    exact (Nat.mod_eq_of_lt (by omega)).trans (Nat.and_two_pow_sub_one_eq_mod w.toNat 4).symm
  · exact ⟨_, step_wr_port .ctrl hv (by decide) (by decide) rfl he, rfl, BitVec.and_one_eq_setWidth_ofBool_getLsbD.symm⟩

end Sys2Proof
end

section
/-! Proofs for 20_memory.md: which accesses are answered (R50, R54), what each offset of the register map reads as (R52,
R56, R57), and the writes it ignores (R55). -/

namespace Sys2Proof.Machine

/-! ### Which accesses are answered (R50, R54) -/

theorem accessWf_iff {off width : Nat} : accessWf off width = true ↔ off % 4 = 0 ∧ width = 4 := by
  simp [accessWf]

/-- R50: an address of the aperture decodes to its distance from BASE. -/
theorem offsetOf_eq_some {c : Config} {addr : Nat} (hlo : c.base ≤ addr) (hhi : addr < c.base + 4096) :
    offsetOf c addr = some (addr - c.base) :=
  if_pos ⟨hlo, hhi⟩

theorem offsetOf_base_add {c : Config} {off : Nat} (h : off < 4096) : offsetOf c (c.base + off) = some off := by
  rw [offsetOf_eq_some (by omega) (by omega), Nat.add_sub_cancel_left]

/-- R20: the step that takes a host access. -/
theorem step_host {s : State} {a : Access} {es : List Event} (hv : s.cfg.valid = true) (he : s.events = .host a :: es) :
    step s = hostStep a { s with events := es } := by
  rw [step, if_pos hv, stepEvent, he]

/-- R54: an ill-formed access inside the aperture is a bus error. -/
theorem hostStep_busError {a : Access} {s : State} {off : Nat} (ho : offsetOf s.cfg a.addr = some off)
    (hw : ¬ (off % 4 = 0 ∧ a.width = 4)) : hostStep a s = .fault (.busError a) := by
  simp [hostStep, ho, mt accessWf_iff.1 hw]

/-- R54, R57, R58: a well-formed access is answered, a read with its data and a write by its port. -/
theorem hostStep_answers {a : Access} {s : State} {off : Nat} (ho : offsetOf s.cfg a.addr = some off)
    (hal : off % 4 = 0) (hwidth : a.width = 4) : ∃ t, hostStep a s = .next t := by
  obtain ⟨op, addr, width⟩ := a
  have hwf := accessWf_iff.2 ⟨hal, hwidth⟩
  simp only [hostStep, ho, if_pos hwf]
  cases op with
  | read => exact ⟨_, rfl⟩
  | write w =>
    obtain ⟨t, ht, _⟩ := writePort_words { s with reply := none } w (portAt s.cfg.maxw off)
    exact ⟨t, ht⟩

/-- R40, R149: every engine turn is answered. -/
theorem engineStep_answers (s : State) : ∃ t, engineStep s = .next t := by
  rcases engineStep_cases s with ⟨p, _, _, he⟩ | he
  · obtain ⟨t, ht, _⟩ := exec_completion p.instr s
    exact ⟨t, he.trans ht⟩
  · exact ⟨s, he⟩

/-! ### The register map (R52) -/

/-- R55: the offsets between VCLR and the window, and those past its last word, are reserved. -/
theorem portAt_reserved {maxw off : Nat} (h : (0x024 ≤ off ∧ off < 0x800) ∨ 0x800 + 4 * maxw ≤ off) :
    portAt maxw off = .reserved := by
  have named {c : Nat} (hc : c < 0x024) : off ≠ c := by omega
  have window : ¬ (0x800 ≤ off ∧ off < 0x800 + 4 * maxw) := by omega
  simp [portAt, named, window]

/-- R55: a read of a reserved offset gives 0. -/
theorem State.memRead_reserved {s : State} {off : Nat}
    (h : (0x024 ≤ off ∧ off < 0x800) ∨ 0x800 + 4 * s.cfg.maxw ≤ off) : s.memRead off = 0 := by
  rw [State.memRead, portAt_reserved h]; rfl

/-- The registers of the map whose reads show the register that SEL selects (R35, R36). -/
def Port.showsSelected : Port → Bool
  | .len | .bitlen | .win _ => true
  | _ => false

theorem portAt_showsSelected_eq_false {maxw off : Nat} (hlen : off ≠ 0x018) (hbitlen : off ≠ 0x01C)
    (hwin : off < 0x800 ∨ 0x800 + 4 * maxw ≤ off) : (portAt maxw off).showsSelected = false := by
  have window : ¬ (0x800 ≤ off ∧ off < 0x800 + 4 * maxw) := by omega
  simp only [portAt, if_neg hlen, if_neg hbitlen, if_neg window]
  split_ifs <;> rfl

theorem portAt_eq_status {maxw off : Nat} (h : portAt maxw off = .status) : off = 0x00C := by
  unfold portAt at h
  split_ifs at h
  assumption

/-- R40, R57: behind a command's frame every register of the map but STATUS reads as before, unless it shows the
destination. -/
theorem CommandFrame.readPort_eq {dest : Option RegIdx} {s t : State} (h : CommandFrame dest s t) {p : Port}
    (hstatus : p ≠ .status) (hdest : dest = some s.sel → p.showsSelected = false) : t.readPort p = s.readPort p := by
  have selected (hp : p.showsSelected = true) : t.words t.sel = s.words s.sel := by
    rw [h.sel]
    exact h.regs s.sel fun hd => Bool.false_ne_true ((hdest hd).symm.trans hp)
  cases p with
  | status => exact absurd rfl hstatus
  | len | bitlen | win k => simp only [State.readPort, State.value, State.word, selected rfl]
  | config => simp only [State.readPort, h.cfg]
  | cmd => exact h.cmdreg
  | ctrl => simp only [State.readPort, h.ie]
  | sel => simp only [State.readPort, h.sel]
  | id | vclr | reserved => rfl

/-- R32: the fields of the CONFIG word of a valid configuration. -/
theorem configWord_fields {c : Config} (hv : c.valid = true) :
    (configWord c).extractLsb' 0 8 = 16 ∧ ((configWord c).extractLsb' 8 12).toNat = c.maxw ∧
      (configWord c).extractLsb' 20 12 = 0 := by
  have hmax : c.maxw ≤ 512 := by
    simp only [Config.valid, decide_eq_true_eq] at hv
    exact hv.2.1
  have hword : (configWord c).toNat = 16 + c.maxw * 256 := Nat.mod_eq_of_lt (by simp only [Config.nreg]; omega)
  refine ⟨BitVec.eq_of_toNat_eq ?_, ?_, BitVec.eq_of_toNat_eq ?_⟩ <;>
    rw [BitVec.extractLsb'_toNat, hword, Nat.shiftRight_eq_div_pow]
  · show _ = 16
    omega
  · omega
  · show _ = 0
    omega

/-- R35: the word and the bit length of a register's value fit in a bus word, since `MAXW` is at most 512. -/
theorem State.Sized.lengths_lt {s : State} (h : s.Sized) (hv : s.cfg.valid = true) (r : RegIdx) :
    wordLen (s.value r) < 2 ^ 32 ∧ bitLen (s.value r) < 2 ^ 32 := by
  have hword := wordLen_le_iff.2 (h.value_lt r)
  have hbit := bitLen_le_iff.2 (h.value_lt r)
  simp only [Config.valid, decide_eq_true_eq] at hv
  omega

/-! ### Byte and word order (R56) -/

/-- R56: a bus word is the sum of its byte lanes, lane 0 the least significant. -/
theorem toNat_eq_byteLanes (w : Word) :
    w.toNat = (byteLane w 0).toNat + 2 ^ 8 * (byteLane w 1).toNat + 2 ^ 16 * (byteLane w 2).toNat
      + 2 ^ 24 * (byteLane w 3).toNat := by
  have hw := toNat_lt w
  simp only [byteLane, BitVec.extractLsb'_toNat, Nat.shiftRight_eq_div_pow]
  omega

/-- R56: the bytes from an aligned offset on are the lanes of its bus word. -/
theorem State.byteAt_add (s : State) {off j : Nat} (ha : off % 4 = 0) (hj : j < 4) :
    s.byteAt (off + j) = byteLane (s.memRead off) j := by
  have hlane : (off + j) % 4 = j := by omega
  rw [State.byteAt, hlane, Nat.add_sub_cancel]

/-- R36, R56: the window shows all words of the selected register, word 0 first. -/
theorem State.Sized.words_eq_window {s : State} (h : s.Sized) :
    s.words s.sel = (List.range s.cfg.maxw).map (fun k => s.memRead (0x800 + 4 * k)) := by
  refine List.ext_getElem (by simp [h s.sel]) fun k hk _ => ?_
  rw [List.getElem_map, List.getElem_range, State.memRead_win (h s.sel ▸ hk)]
  exact (List.getD_eq_getElem _ _ hk).symm

end Sys2Proof.Machine

namespace Sys2Proof

open Machine

/-- Settles O27: a completion's frame leaves every register of the map but STATUS and those that show the destination. -/
theorem completionSeenThroughAperture : Obligations.CompletionSeenThroughAperture := by
  intro i s t off hx hoff hdest
  have hframe := (completion_of_exec hx).frame
  rw [State.memRead, State.memRead, hframe.cfg]
  refine hframe.readPort_eq (fun hp => hoff (portAt_eq_status hp)) fun hd => ?_
  obtain ⟨hlen, hbitlen, hwin⟩ := hdest hd
  exact portAt_showsSelected_eq_false hlen hbitlen hwin

/-- Settles O34, by the two outcomes of a host access inside the aperture. -/
theorem onlyAlignedWordAccesses : Obligations.OnlyAlignedWordAccesses := by
  intro s op off width es hv ho he
  rw [step_host hv he]
  exact ⟨fun hbad => hostStep_busError (offsetOf_base_add ho) (by simp only; omega),
    fun hwidth hal => hostStep_answers (offsetOf_base_add ho) hal hwidth⟩

/-- Settles O35: the step of a read is `step_rd`. -/
theorem readsHaveNoSideEffect : Obligations.ReadsHaveNoSideEffect := fun _ _ _ => step_rd

/-- Settles O36, register by register; CONFIG, LEN and BITLEN need their bounds. -/
theorem registerMapReads : Obligations.RegisterMapReads := by
  intro s hv hs
  obtain ⟨hnreg, hmaxw, hzero⟩ := configWord_fields hv
  obtain ⟨hlen, hbitlen⟩ := hs.lengths_lt hv s.sel
  have hie : (BitVec.ofBool s.ie).setWidth 32 = if s.ie then 1 else 0 := by cases s.ie <;> rfl
  have hsel : s.sel.val < 2 ^ 32 := by omega
  exact ⟨rfl, hnreg, hmaxw, hzero, rfl, rfl, hie, Nat.mod_eq_of_lt hsel, Nat.mod_eq_of_lt hlen, Nat.mod_eq_of_lt hbitlen,
    rfl, fun _ hlo hhi => State.memRead_reserved (.inl ⟨hlo, hhi⟩), fun _ hk => State.memRead_win hk,
    fun _ hk => State.memRead_reserved (.inr (by omega))⟩

/-- Settles O37: the step of a write or a read at a reserved port, and of a write to each read-only port. -/
theorem reservedOffsetsIgnoreWrites : Obligations.ReservedOffsetsIgnoreWrites := by
  refine ⟨fun s off w es hv ho hal hr he => ?_, fun s off es hv ho hal hr he => ?_, fun s off w es hv hoff he => ?_⟩
  · exact step_wr_port .reserved hv ho hal (portAt_reserved hr) he
  · exact step_rd_port .reserved hv ho hal (portAt_reserved hr) he
  · rcases hoff with rfl | rfl | rfl | rfl
    · exact step_wr_port .id hv (by decide) (by decide) rfl he
    · exact step_wr_port .config hv (by decide) (by decide) rfl he
    · exact step_wr_port .len hv (by decide) (by decide) rfl he
    · exact step_wr_port .bitlen hv (by decide) (by decide) rfl he

/-- Settles O41, by the lanes of a bus word and the words of the window. -/
theorem byteAndWordOrder : Obligations.ByteAndWordOrder := by
  refine ⟨fun s off ha => ?_, fun s hs => congrArg val hs.words_eq_window⟩
  have lane0 : s.byteAt off = byteLane (s.memRead off) 0 := s.byteAt_add (j := 0) ha (by decide)
  rw [lane0, s.byteAt_add (j := 1) ha (by decide), s.byteAt_add (j := 2) ha (by decide),
    s.byteAt_add (j := 3) ha (by decide)]
  exact toNat_eq_byteLanes _

/-- Settles O49: the engine and a reset always answer, and so does a host access unless it is outside the aperture or
ill-formed. -/
theorem onlyBadAccessesStop : Obligations.OnlyBadAccessesStop := by
  intro s hv
  rw [step, if_pos hv, stepEvent]
  split
  · exact .inl (engineStep_answers _)
  · exact .inl (engineStep_answers _)
  · exact .inl ⟨_, rfl⟩
  · next a es he =>
    by_cases hbad : a.addr < s.cfg.base ∨ s.cfg.base + 4096 ≤ a.addr ∨ a.width ≠ 4 ∨ (a.addr - s.cfg.base) % 4 ≠ 0
    · exact .inr ⟨a, es, he, hbad⟩
    · push Not at hbad
      obtain ⟨hlo, hhi, hwidth, hal⟩ := hbad
      exact .inl (hostStep_answers (offsetOf_eq_some hlo hhi) hal hwidth)

end Sys2Proof
end

section
/-! Proofs for 30_encoding.md: decoding and encoding (R71 to R74, R80). -/

namespace Sys2Proof

/-! ### The rows of the opcode table (R74) -/

/-- R74: two rows that select one word agree in every bit that both masks cover. -/
theorem Row.pattern_and_mask_of_selects {r₁ r₂ : Row} {w : Word} (h₁ : r₁.selects w = true) (h₂ : r₂.selects w = true) :
    r₁.pattern &&& r₂.mask = r₂.pattern &&& r₁.mask := by
  simp only [Row.selects, beq_iff_eq] at h₁ h₂
  rw [← h₁, ← h₂, BitVec.and_assoc, BitVec.and_assoc, BitVec.and_comm r₁.mask]

/-- R74: any two different rows of the table differ in a bit that both masks cover. -/
theorem opcodeTable_separated : ∀ r₁ ∈ opcodeTable, ∀ r₂ ∈ opcodeTable,
    r₁.pattern &&& r₂.mask = r₂.pattern &&& r₁.mask → r₁ = r₂ := by decide

/-- Settles O3: two rows that select one word agree where both masks look, and no two different rows do. -/
theorem atMostOneRowSelects : Obligations.AtMostOneRowSelects := fun _ r₁ r₂ hm₁ hm₂ h₁ h₂ =>
  opcodeTable_separated r₁ hm₁ r₂ hm₂ (Row.pattern_and_mask_of_selects h₁ h₂)

/-- R80: a word decodes by any row that selects it. -/
theorem decodeWord_of_selects {r : Row} {w : Word} (hr : r ∈ opcodeTable) (hs : r.selects w = true) :
    decodeWord w = .ok (r.mnemonic.build w) := by
  obtain ⟨r', hf⟩ := Option.isSome_iff_exists.1 (List.find?_isSome (p := fun r : Row => r.selects w).2 ⟨r, hr, hs⟩)
  have hs' : r'.selects w = true := List.find?_some (p := fun r : Row => r.selects w) hf
  obtain rfl := atMostOneRowSelects w r' r (List.mem_of_find?_eq_some hf) hr hs' hs
  simp only [decodeWord, hf]

/-! ### The fields of a word (R71) -/

/-- R71: the fields of a command word; RSV is not among them. -/
def wordFields (w : Word) : Fields :=
  ⟨opField w, rdField w, raField w, rbField w, rcField w, w.getLsbD 20⟩

/-- R71: the fields of a packed word, over the width its parts add up to. -/
theorem packLayout (f : Fields) {y : BitVec (11 + 1 + 4 + 4 + 4 + 4 + 4)}
    (hy : y = 0#11 ++ BitVec.ofBool f.m ++ (BitVec.ofFin f.rc : BitVec 4) ++ (BitVec.ofFin f.rb : BitVec 4)
      ++ (BitVec.ofFin f.ra : BitVec 4) ++ (BitVec.ofFin f.rd : BitVec 4) ++ f.op) :
    y.extractLsb' 0 4 = f.op ∧ y.extractLsb' 4 4 = BitVec.ofFin f.rd ∧ y.extractLsb' 8 4 = BitVec.ofFin f.ra ∧
    y.extractLsb' 12 4 = BitVec.ofFin f.rb ∧ y.extractLsb' 16 4 = BitVec.ofFin f.rc ∧ y.getLsbD 20 = f.m ∧
    y.extractLsb' 21 11 = 0 := by
  subst hy
  simp (disch := decide) only [BitVec.getLsbD_append, BitVec.extractLsb'_append_eq_of_le,
    BitVec.extractLsb'_append_eq_of_add_le, BitVec.extractLsb'_eq_self, Nat.reduceLT, Nat.reduceSub, ↓reduceIte]
  simp

@[simp] theorem wordFields_pack (f : Fields) : wordFields f.pack = f := by
  obtain ⟨hop, hrd, hra, hrb, hrc, hm, _⟩ := packLayout f (y := f.pack) rfl
  have hop : opField f.pack = f.op := hop
  have hrd : rdField f.pack = f.rd := congrArg BitVec.toFin hrd
  have hra : raField f.pack = f.ra := congrArg BitVec.toFin hra
  have hrb : rbField f.pack = f.rb := congrArg BitVec.toFin hrb
  have hrc : rcField f.pack = f.rc := congrArg BitVec.toFin hrc
  have hm : f.pack.getLsbD 20 = f.m := hm
  rw [wordFields, hop, hrd, hra, hrb, hrc, hm]

@[simp] theorem rsvField_pack (f : Fields) : rsvField f.pack = 0 := by
  obtain ⟨_, _, _, _, _, _, hrsv⟩ := packLayout f (y := f.pack) rfl
  exact hrsv

/-- R71: a word without a reserved bit is put together again from its fields. -/
theorem pack_wordFields {w : Word} (h : rsvField w = 0) : (wordFields w).pack = w := by
  have join (k l : Nat) {m n : Nat} (hk : k = l + n) :
      w.extractLsb' k m ++ w.extractLsb' l n = w.extractLsb' l (m + n) :=
    BitVec.extractLsb'_append_extractLsb'_eq_extractLsb' hk
  have hm : BitVec.ofBool (w.getLsbD 20) = w.extractLsb' 20 1 := by
    ext i hi
    simp [show i = 0 by omega]
  have hw : w.extractLsb' 21 11 ++ w.extractLsb' 20 1 ++ w.extractLsb' 16 4 ++ w.extractLsb' 12 4 ++ w.extractLsb' 8 4
      ++ w.extractLsb' 4 4 ++ w.extractLsb' 0 4 = w := by
    rw [join 21 20 rfl, join 20 16 rfl, join 16 12 rfl, join 12 8 rfl, join 8 4 rfl, join 4 0 rfl]
    exact BitVec.extractLsb'_eq_self
  rw [← hm, show w.extractLsb' 21 11 = 0 from h] at hw
  exact hw

/-- R71: packing fields gives `w` exactly if they are the fields of `w` and its reserved bits are 0. -/
theorem Fields.pack_eq_iff {f : Fields} {w : Word} : f.pack = w ↔ rsvField w = 0 ∧ wordFields w = f := by
  constructor
  · rintro rfl
    exact ⟨rsvField_pack f, wordFields_pack f⟩
  · rintro ⟨hrsv, rfl⟩
    exact pack_wordFields hrsv

/-! ### Decoding and encoding (R80, R82) -/

/-- R74: the row of a command selects the command's word. -/
theorem rowOf_selects_encode (i : Instr) :
    Laws.Row.rowOf i ∈ opcodeTable ∧ (Laws.Row.rowOf i).selects (encode i) = true := by
  have h : Laws.Row.Statement i := by
    cases i with
    | nop => exact Laws.Row.nop
    | add rd ra rb => exact Laws.Row.add rd ra rb
    | sub rd ra rb => exact Laws.Row.sub rd ra rb
    | mul rd ra rb => exact Laws.Row.mul rd ra rb
    | divq rd ra rb => exact Laws.Row.divq rd ra rb
    | divr rd ra rb => exact Laws.Row.divr rd ra rb
    | powmod rd ra rb rc => exact Laws.Row.powmod rd ra rb rc
    | cmp ra rb => exact Laws.Row.cmp ra rb
  exact ⟨h.1, beq_iff_eq.2 h.2⟩

/-- R80: a row builds the command from the fields of its word. -/
theorem build_encode (i : Instr) : (Laws.Row.rowOf i).mnemonic.build (encode i) = i := by
  have hf : wordFields (encode i) = i.fields := wordFields_pack i.fields
  have hrd : rdField (encode i) = i.fields.rd := congrArg Fields.rd hf
  have hra : raField (encode i) = i.fields.ra := congrArg Fields.ra hf
  have hrb : rbField (encode i) = i.fields.rb := congrArg Fields.rb hf
  have hrc : rcField (encode i) = i.fields.rc := congrArg Fields.rc hf
  cases i <;> simp only [Laws.Row.rowOf, Mnemonic.build, hrd, hra, hrb, hrc, Instr.fields]

theorem decodeWord_encode (i : Instr) : decodeWord (encode i) = .ok i := by
  obtain ⟨hmem, hsel⟩ := rowOf_selects_encode i
  rw [decodeWord_of_selects hmem hsel, build_encode]

/-- R56: the bytes of a word decode as the word does, and the bytes after it are left. -/
theorem decodeBytes_wordToBytes {w : Word} {i : Instr} (h : decodeWord w = .ok i) (rest : List Byte) :
    decodeBytes (wordToBytes w ++ rest) = .ok (i, rest) := by
  simp only [wordToBytes, List.cons_append, List.nil_append, decodeBytes, wordOfLanes_byteLane, h]

/-- Settles O1: the row of a command selects its word, and no other row does; the bytes are the word's lanes. -/
theorem decodeEncodeAgree : Obligations.DecodeEncodeAgree := fun i rest =>
  ⟨decodeWord_encode i, decodeBytes_wordToBytes (decodeWord_encode i) rest⟩

/-- R74: what a row's mask covers of a selected word is what the row's pattern has there, at any width. -/
theorem extractLsb'_of_mask_covers {w m p : Word} (h : w &&& m = p) {k n : Nat} (hm : m.extractLsb' k n = BitVec.allOnes n) :
    w.extractLsb' k n = p.extractLsb' k n := by
  rw [← h, BitVec.extractLsb'_and, hm, BitVec.and_allOnes]

/-- R72, R74: every mask covers OP, M and RSV, and RSV is 0 in every pattern. -/
theorem opcodeTable_covers : ∀ r ∈ opcodeTable,
    r.mask.extractLsb' 0 4 = BitVec.allOnes 4 ∧ r.mask.getLsbD 20 = true ∧ r.mask.extractLsb' 21 11 = BitVec.allOnes 11 ∧
      r.pattern.extractLsb' 21 11 = 0 := by decide

/-- R72, R80: a legal word has no reserved bit, and its fields are those of its command. -/
theorem wordFields_of_decodeWord {w : Word} {i : Instr} (h : decodeWord w = .ok i) :
    rsvField w = 0 ∧ wordFields w = i.fields := by
  obtain ⟨hra, hrb, hrc⟩ := fields_of_decodeWord h
  obtain ⟨r, hr, hs, rfl⟩ := decodeWord_ok h
  obtain ⟨hopMask, hmMask, hrsvMask, hrsv⟩ := opcodeTable_covers r hr
  have hop : opField w = r.pattern.extractLsb' 0 4 := extractLsb'_of_mask_covers hs hopMask
  have hm : w.getLsbD 20 = r.pattern.getLsbD 20 := by rw [← hs, BitVec.getLsbD_and, hmMask, Bool.and_true]
  have unusedRd (hrdMask : r.mask.extractLsb' 4 4 = BitVec.allOnes 4) : rdField w = (r.pattern.extractLsb' 4 4).toFin :=
    congrArg BitVec.toFin (extractLsb'_of_mask_covers hs hrdMask)
  refine ⟨(extractLsb'_of_mask_covers hs hrsvMask).trans hrsv, ?_⟩
  rw [wordFields, hop, hm, ← hra, ← hrb, ← hrc]
  simp only [opcodeTable, List.mem_cons, List.not_mem_nil, or_false] at hr
  rcases hr with rfl | rfl | rfl | rfl | rfl | rfl | rfl | rfl
  · rw [unusedRd (by decide)]; rfl
  · rfl
  · rfl
  · rfl
  · rfl
  · rfl
  · rfl
  · rw [unusedRd (by decide)]; rfl

/-- R80: the decoder gives a command for exactly one word, its encoding. -/
theorem decodeWord_eq_ok_iff {w : Word} {i : Instr} : decodeWord w = .ok i ↔ encode i = w := by
  constructor
  · intro h
    exact Fields.pack_eq_iff.2 (wordFields_of_decodeWord h)
  · rintro rfl
    exact decodeWord_encode i

/-- Settles O2: a legal word is packed from its command's fields. -/
theorem legalWordIsItsEncoding : Obligations.LegalWordIsItsEncoding := fun _ _ => decodeWord_eq_ok_iff.1

/-! ### Illegal words by their fields (R72, R80) -/

/-- R72: a field that the format of the opcode requires to be 0 is not, or the opcode is none of R74's. -/
def Fields.Illegal (f : Fields) : Prop :=
  7 ≤ f.op.toNat
    ∨ (f.op = 0 ∧ (f.rd ≠ 0 ∨ f.ra ≠ 0 ∨ f.rb ≠ 0 ∨ f.rc ≠ 0 ∨ f.m = true))
    ∨ ((f.op = 1 ∨ f.op = 2 ∨ f.op = 3) ∧ (f.rc ≠ 0 ∨ f.m = true))
    ∨ (f.op = 4 ∧ f.rc ≠ 0)
    ∨ (f.op = 5 ∧ f.m = true)
    ∨ (f.op = 6 ∧ (f.rd ≠ 0 ∨ f.rc ≠ 0 ∨ f.m = true))

theorem Instr.fields_not_illegal (i : Instr) : ¬ i.fields.Illegal := by
  cases i <;> simp [Instr.fields, Fields.Illegal]

/-- R72: fields that are not illegal are a command's. -/
theorem Fields.exists_instr {f : Fields} (h : ¬ f.Illegal) : ∃ i : Instr, i.fields = f := by
  obtain ⟨op, rd, ra, rb, rc, m⟩ := f
  simp only [Fields.Illegal, not_or, not_and, ne_eq, not_not, Bool.not_eq_true] at h
  obtain ⟨hop, h0, h123, h4, h5, h6⟩ := h
  have hcases : op = 0 ∨ op = 1 ∨ op = 2 ∨ op = 3 ∨ op = 4 ∨ op = 5 ∨ op = 6 := by bv_omega
  rcases hcases with rfl | rfl | rfl | rfl | rfl | rfl | rfl
  · obtain ⟨rfl, rfl, rfl, rfl, rfl⟩ := h0 rfl
    exact ⟨.nop, rfl⟩
  · obtain ⟨rfl, rfl⟩ := h123 (.inl rfl)
    exact ⟨.add rd ra rb, rfl⟩
  · obtain ⟨rfl, rfl⟩ := h123 (.inr (.inl rfl))
    exact ⟨.sub rd ra rb, rfl⟩
  · obtain ⟨rfl, rfl⟩ := h123 (.inr (.inr rfl))
    exact ⟨.mul rd ra rb, rfl⟩
  · obtain rfl := h4 rfl
    cases m with
    | false => exact ⟨.divq rd ra rb, rfl⟩
    | true => exact ⟨.divr rd ra rb, rfl⟩
  · obtain rfl := h5 rfl
    exact ⟨.powmod rd ra rb rc, rfl⟩
  · obtain ⟨rfl, rfl, rfl⟩ := h6 rfl
    exact ⟨.cmp ra rb, rfl⟩

/-- R80: a word is ILLEGAL exactly if a reserved bit is set or its fields are illegal. -/
theorem decodeWord_error_iff {w : Word} :
    (∃ e, decodeWord w = .error e) ↔ rsvField w ≠ 0 ∨ (wordFields w).Illegal := by
  constructor
  · rintro ⟨e, he⟩
    by_contra hlegal
    obtain ⟨hrsv, hf⟩ := not_or.1 hlegal
    obtain ⟨i, hi⟩ := Fields.exists_instr hf
    have hok : decodeWord w = .ok i := decodeWord_eq_ok_iff.2 (Fields.pack_eq_iff.2 ⟨not_not.1 hrsv, hi.symm⟩)
    cases he.symm.trans hok
  · intro h
    cases hd : decodeWord w with
    | error e => exact ⟨e, rfl⟩
    | ok i =>
      obtain ⟨hrsv, hf⟩ := wordFields_of_decodeWord hd
      rw [hf] at h
      exact (h.elim (· hrsv) i.fields_not_illegal).elim

/-- Settles O4: a word is legal exactly if it is packed from a command's fields. -/
theorem illegalWordsByField : Obligations.IllegalWordsByField := fun _ =>
  decodeWord_error_iff.trans or_left_comm

/-- Settles O5, by the decoder's run on each of the words. -/
theorem tableWordsDecode : Obligations.TableWordsDecode := by
  unfold Obligations.TableWordsDecode
  decide

end Sys2Proof
end

section
/-! Proofs for 30_encoding.md: the assembler text (R82). -/

namespace Sys2Proof.Machine

/-! ### White space and commas -/

/-- Text that begins and ends with no white space is not trimmed. -/
theorem trim_eq_self {l : List Char} (hfirst : ∀ c ∈ l.head?, isSpace c = false)
    (hlast : ∀ c ∈ l.getLast?, isSpace c = false) :
    trim l = l := by
  have hd : l.dropWhile isSpace = l := by
    cases l with
    | nil => rfl
    | cons c l => exact List.dropWhile_cons_of_neg (by simp [hfirst c rfl])
  have hr : l.rdropWhile isSpace = l := List.rdropWhile_eq_self_iff.2 fun hl => by
    simp [hlast _ (List.getLast?_eq_getLast_of_ne_nil hl)]
  rw [trim, hd]
  exact hr

theorem trim_space_cons (l : List Char) : trim (' ' :: l) = trim l := rfl

theorem splitCommas_of_not_mem {l : List Char} (h : ',' ∉ l) : splitCommas l = [l] := by
  induction l with
  | nil => rfl
  | cons c l ih =>
    rw [List.mem_cons, not_or] at h
    simp [splitCommas, ih h.2, Ne.symm h.1]

theorem splitCommas_append {l : List Char} (h : ',' ∉ l) (rest : List Char) :
    splitCommas (l ++ ',' :: rest) = l :: splitCommas rest := by
  have hne (cs : List Char) : splitCommas cs ≠ [] := by
    cases cs with
    | nil => simp [splitCommas]
    | cons c cs => simp only [splitCommas]; split <;> [simp; split <;> simp]
  induction l with
  | nil =>
    obtain ⟨part, parts, hs⟩ := List.exists_cons_of_ne_nil (hne rest)
    simp [splitCommas, hs]
  | cons c l ih =>
    rw [List.mem_cons, not_or] at h
    simp [splitCommas, ih h.2, Ne.symm h.1]

/-! ### Register names -/

/-- R82: a register name has no white space, comma or semicolon. -/
theorem regName_chars : ∀ (r : RegIdx), ∀ c ∈ regName r, isSpace c = false ∧ c ≠ ',' ∧ c ≠ ';' := by
  intro r
  fin_cases r <;> simp [regName, regDigits, isSpace]

@[simp] theorem parseReg_regName : ∀ r : RegIdx, parseReg (regName r) = some r := by
  intro r
  fin_cases r <;> rfl

theorem trim_regName (r : RegIdx) : trim (regName r) = regName r :=
  trim_eq_self (fun c hc => (regName_chars r c (List.mem_of_mem_head? hc)).1)
    (fun c hc => (regName_chars r c (List.mem_of_mem_getLast? hc)).1)

/-! ### The operand list -/

/-- The text of an operand list, as `printInstr` lays it out: a comma and a space between names. -/
def operandText (r : RegIdx) (rs : List RegIdx) : List Char :=
  regName r ++ rs.flatMap (fun r => ',' :: ' ' :: regName r)

theorem operandText_ne_nil (r : RegIdx) (rs : List RegIdx) : operandText r rs ≠ [] := nofun

/-- R82: the operand list is read back register by register.  The first part is generalised to any comma-free text that trims
to the register's name, because each later part still has its leading space. -/
theorem parse_operandText (r : RegIdx) (rs : List RegIdx) :
    (splitCommas (operandText r rs)).mapM (fun part => parseReg (trim part)) = some (r :: rs) := by
  suffices h : ∀ pre : List Char, ',' ∉ pre → trim pre = trim (regName r) →
      (splitCommas (pre ++ rs.flatMap fun r => ',' :: ' ' :: regName r)).mapM (fun part => parseReg (trim part)) =
        some (r :: rs) from
    h (regName r) (fun hc => (regName_chars r _ hc).2.1 rfl) rfl
  induction rs generalizing r with
  | nil =>
    intro pre hpre ht
    rw [List.flatMap_nil, List.append_nil, splitCommas_of_not_mem hpre]
    simp [ht, trim_regName]
  | cons r' rs ih =>
    intro pre hpre ht
    rw [List.flatMap_cons, List.cons_append, splitCommas_append hpre]
    have hr' := ih r' (' ' :: regName r') (by simpa using fun hc => (regName_chars r' _ hc).2.1 rfl) (trim_space_cons _)
    rw [List.cons_append, List.mapM_cons, ← List.cons_append, hr', ht, trim_regName, parseReg_regName]
    rfl

theorem operandText_no_comment {r : RegIdx} {rs : List RegIdx} {c : Char} (h : c ∈ operandText r rs) : c ≠ ';' := by
  simp only [operandText, List.mem_append, List.mem_flatMap, List.mem_cons] at h
  rcases h with h | ⟨r', _, rfl | rfl | h⟩
  · exact (regName_chars r c h).2.2
  · decide
  · decide
  · exact (regName_chars r' c h).2.2

theorem getLast?_operandText {r : RegIdx} {rs : List RegIdx} : ∀ c ∈ (operandText r rs).getLast?, isSpace c = false := by
  induction rs generalizing r with
  | nil =>
    intro c hc
    rw [operandText, List.flatMap_nil, List.append_nil] at hc
    exact (regName_chars r c (List.mem_of_getLast? hc)).1
  | cons r' rs ih =>
    have h : operandText r (r' :: rs) = (regName r ++ [',', ' ']) ++ operandText r' rs := by simp [operandText]
    rw [h, List.getLast?_append_of_ne_nil _ (operandText_ne_nil r' rs)]
    exact ih

/-! ### A line -/

/-- A mnemonic: characters that are neither white space nor the start of a comment, at least one. -/
def IsMnemonic (m : List Char) : Prop := m ≠ [] ∧ ∀ c ∈ m, isSpace c = false ∧ c ≠ ';'

/-- R82: a line with a mnemonic, one space and an operand list is read as that mnemonic with those registers. -/
theorem assembleLine_command {m : List Char} (hm : IsMnemonic m) (r : RegIdx) (rs : List RegIdx) :
    assembleLine (m ++ ' ' :: operandText r rs) = selectCommand m (r :: rs) := by
  obtain ⟨hne, hm⟩ := hm
  have hcomment : dropComment (m ++ ' ' :: operandText r rs) = m ++ ' ' :: operandText r rs := by
    refine List.takeWhile_eq_self_iff.2 fun c hc => bne_iff_ne.2 ?_
    rcases List.mem_append.1 hc with hc | hc
    · exact (hm c hc).2
    · rcases List.mem_cons.1 hc with rfl | hc
      · decide
      · exact operandText_no_comment hc
  have hline : trim (m ++ ' ' :: operandText r rs) = m ++ ' ' :: operandText r rs := by
    refine trim_eq_self (fun c hc => (hm c ?_).1) fun c hc => getLast?_operandText (r := r) (rs := rs) c ?_
    · rw [List.head?_append_of_ne_nil _ hne] at hc
      exact List.mem_of_head? hc
    · rwa [List.getLast?_append_of_ne_nil _ (List.cons_ne_nil _ _),
        List.getLast?_cons_of_ne_nil (operandText_ne_nil r rs)] at hc
  have hnonspace : ∀ c ∈ m, (!isSpace c) = true := fun c hc => by rw [(hm c hc).1]; rfl
  have hmnemonic : (m ++ ' ' :: operandText r rs).takeWhile (fun c => !isSpace c) = m := by
    rw [List.takeWhile_append_of_pos hnonspace, List.takeWhile_cons_of_neg (by decide), List.append_nil]
  have hrest : trim ((m ++ ' ' :: operandText r rs).dropWhile (fun c => !isSpace c)) = operandText r rs := by
    rw [List.dropWhile_append_of_pos hnonspace, List.dropWhile_cons_of_neg (by decide), trim_space_cons]
    exact trim_eq_self (by simp [operandText, regName, isSpace]) getLast?_operandText
  simp only [assembleLine, hcomment, hline]
  split
  · next h => simp at h
  · rw [hrest]
    split
    · next h => exact absurd h (operandText_ne_nil r rs)
    · rw [parse_operandText, hmnemonic]

/-- R82: every command but NOP is printed as its mnemonic and its operands, which select that command. -/
theorem printInstr_command {i : Instr} (hn : i ≠ .nop) :
    ∃ m r rs, IsMnemonic m ∧ printInstr i = m ++ ' ' :: operandText r rs ∧ selectCommand m (r :: rs) = .ok [i] := by
  cases i with
  | nop => exact absurd rfl hn
  | add d a b =>
    exact ⟨['A', 'D', 'D'], d, [a, b], by simp [IsMnemonic, isSpace], by simp [printInstr, operandText], rfl⟩
  | sub d a b =>
    exact ⟨['S', 'U', 'B'], d, [a, b], by simp [IsMnemonic, isSpace], by simp [printInstr, operandText], rfl⟩
  | mul d a b =>
    exact ⟨['M', 'U', 'L'], d, [a, b], by simp [IsMnemonic, isSpace], by simp [printInstr, operandText], rfl⟩
  | divq d a b =>
    exact ⟨['D', 'I', 'V', 'Q'], d, [a, b], by simp [IsMnemonic, isSpace], by simp [printInstr, operandText], rfl⟩
  | divr d a b =>
    exact ⟨['D', 'I', 'V', 'R'], d, [a, b], by simp [IsMnemonic, isSpace], by simp [printInstr, operandText], rfl⟩
  | powmod d a b c =>
    exact ⟨['P', 'O', 'W', 'M', 'O', 'D'], d, [a, b, c], by simp [IsMnemonic, isSpace],
      by simp [printInstr, operandText], rfl⟩
  | cmp a b =>
    exact ⟨['C', 'M', 'P'], a, [b], by simp [IsMnemonic, isSpace], by simp [printInstr, operandText], rfl⟩

end Sys2Proof.Machine

namespace Sys2Proof

open Machine

/-- Settles O6: the printed line is taken apart into its mnemonic and its registers, which select the command. -/
theorem assemblerReadsPrintedCommand : Obligations.AssemblerReadsPrintedCommand := by
  intro i
  by_cases hn : i = .nop
  · subst hn; decide
  · obtain ⟨m, r, rs, hm, hprint, hselect⟩ := printInstr_command hn
    rw [hprint, assembleLine_command hm, hselect]

end Sys2Proof
end

section
/-! Proofs for 30_encoding.md: the host's `wrv` sequence (R84) and the issued expansion of MODMUL (R83). -/

namespace Sys2Proof.Machine

/-! ### Loading a register through the window (R84, R153) -/

theorem val_append (l₁ l₂ : List Word) : val (l₁ ++ l₂) = val l₁ + 2 ^ (32 * l₁.length) * val l₂ := by
  simpa using val_take_drop (l₁ ++ l₂) l₁.length (by simp)

@[simp] theorem State.setWords_words_self (s : State) (r : RegIdx) : s.setWords r (s.words r) = s := by
  simp [State.setWords, State.words]

@[simp] theorem State.setWords_setWords (s : State) (r : RegIdx) (ws ws' : List Word) :
    (s.setWords r ws).setWords r ws' = s.setWords r ws' := by
  simp [State.setWords]

/-- R36: the first of a list of window writes to an idle BNCORE, at word `pre.length` of the selected register. -/
theorem step_wrWindow {s : State} {pre old : List Word} {z w : Word} {ws : List Word} (hv : s.cfg.valid = true)
    (hb : s.status.busy = false) (hw : s.words s.sel = pre ++ z :: old) (hk : pre.length < s.cfg.maxw)
    (he : s.events = wrWindow s.cfg pre.length (w :: ws)) :
    step s = .next (State.setWords { s with events := wrWindow s.cfg (pre.length + 1) ws, reply := none } s.sel
      (pre ++ w :: old)) := by
  have hset : (s.words s.sel).set pre.length w = pre ++ w :: old := by simp [hw]
  rw [← hset]
  exact (step_wr_port (.win pre.length) hv (win_offset_lt hv hk) (by omega) (portAt_win hk) he).trans
    (writePort_win_idle hb)

/-- R36, R84: window writes to an idle BNCORE, from word `pre.length` on, replace the words `old` of the selected
register. -/
theorem run_wrWindow {s : State} {pre ws old rest : List Word} (hv : s.cfg.valid = true) (hb : s.status.busy = false)
    (hr : s.reply = none) (hw : s.words s.sel = pre ++ (old ++ rest)) (hlen : old.length = ws.length)
    (hmax : pre.length + ws.length ≤ s.cfg.maxw) (he : s.events = wrWindow s.cfg pre.length ws) :
    Host.Core.run core ws.length s = .next { s.setWords s.sel (pre ++ (ws ++ rest)) with events := [] } := by
  induction ws generalizing s pre old with
  | nil =>
    rw [List.eq_nil_of_length_eq_zero hlen] at hw
    rw [← hw, State.setWords_words_self]
    exact congrArg _ (by rw [← show s.events = [] from he])
  | cons w ws ih =>
    obtain ⟨z, old, rfl⟩ := List.exists_cons_of_length_eq_add_one hlen
    rw [List.length_cons] at hmax
    rw [List.length_cons, List.length_cons] at hlen
    rw [List.cons_append] at hw
    have hpre : (pre ++ [w]).length = pre.length + 1 := List.length_append
    have hrest := ih (pre := pre ++ [w]) (old := old)
      (s := State.setWords { s with events := wrWindow s.cfg (pre.length + 1) ws, reply := none } s.sel
        (pre ++ w :: (old ++ rest)))
      hv hb rfl (by simp) (by omega) (by rw [hpre, Nat.add_right_comm]; exact hmax) (by rw [hpre]; rfl)
    rw [List.length_cons, run_core_succ _ (step_wrWindow hv hb hw (by omega) he), hrest]
    simp [State.setWords, hr]

@[simp] theorem length_wrWindow (c : Config) (k : Nat) (ws : List Word) : (wrWindow c k ws).length = ws.length := by
  induction ws generalizing k with
  | nil => rfl
  | cons w ws ih => rw [wrWindow, List.length_cons, ih, List.length_cons]

/-- R34: a register's index written to SEL selects that register. -/
theorem sel_of_index (i : RegIdx) : ((BitVec.ofNat 32 i.val).extractLsb' 0 4).toFin = i := by
  revert i; decide

/-- R34, R37, R84: the two writes that begin `wrv i, n` select the register and clear it. -/
theorem run_select_clear {s : State} {i : RegIdx} {es : List Event} (n : Nat) (hv : s.cfg.valid = true)
    (hb : s.status.busy = false) (he : s.events = wr s.cfg 0x014 (BitVec.ofNat 32 i.val) :: wr s.cfg 0x020 1 :: es) :
    Host.Core.run core (n + 2) s =
      Host.Core.run core n (State.clearReg { s with events := es, reply := none, sel := i } i) := by
  have hselect : step s = .next { s with events := wr s.cfg 0x020 1 :: es, reply := none, sel := i } := by
    rw [step_wr_port .sel hv (by decide) (by decide) rfl he, State.writePort, sel_of_index]
  have hclear := (step_wr_port (s := { s with events := wr s.cfg 0x020 1 :: es, reply := none, sel := i }) .vclr hv
    (by decide) (by decide) rfl rfl).trans (writePort_vclr_idle (by decide) hb)
  rw [run_core_succ _ hselect, run_core_succ _ hclear]

/-! ### A command issued and completed (R83, R84) -/

/-- R38, R84: an idle BNCORE behind the CMD write that issues a command, with the engine's turn taken from the inputs. -/
def State.issued (s : State) (i : Instr) (es : List Event) : State :=
  { (s.beginCommand (encode i)).enqueue i with events := es, reply := none }

/-- R38, R40, R84: a command issued on an idle BNCORE, and the engine's turn after it, complete with its result on the
registers. -/
theorem run_issued {s : State} {i : Instr} {es : List Event} (n : Nat) (hv : s.cfg.valid = true)
    (hb : s.status.busy = false) (hn : i ≠ .nop) (he : s.events = wr s.cfg 0x008 (encode i) :: .engine :: es) :
    Host.Core.run core (n + 2) s =
      Host.Core.run core n ((s.issued i es).complete (resultOf i s.cfg.maxw (s.capture i))) := by
  have haccept := (step_cmdWrite_idle hv hb he).trans (accept_engine _ (decodeWord_encode i) hn)
  have hengine := (step_engine
    (s := (State.beginCommand { s with events := .engine :: es, reply := none } (encode i)).enqueue i)
    (p := ⟨i, s.capture i⟩) hv (.inr rfl) rfl rfl).trans (exec_eq_complete _ hn)
  rw [run_core_succ _ haccept, run_core_succ _ hengine]
  rfl

/-- R24, R40: an issued command whose result is a value that fits leaves it in the destination. -/
theorem run_issued_wrote {s : State} {i : Instr} {rd : RegIdx} {x : Nat} {cy : Bool} {es : List Event} (n : Nat)
    (hv : s.cfg.valid = true) (hb : s.status.busy = false) (hn : i ≠ .nop)
    (hr : resultOf i s.cfg.maxw (s.capture i) = .wrote rd x cy) (hx : x < 2 ^ (32 * s.cfg.maxw))
    (he : s.events = wr s.cfg 0x008 (encode i) :: .engine :: es) :
    ∃ t, Host.Core.run core (n + 2) s = Host.Core.run core n t ∧ Wrote rd x (zeroFlag x) cy (s.issued i es) t :=
  ⟨_, hr ▸ run_issued n hv hb hn he, complete_wrote (s.issued i es) rd cy hx⟩

end Sys2Proof.Machine

namespace Sys2Proof

open Machine

/-- Settles O43: SEL and VCLR leave the register cleared, and the window writes put the words of `n` in place of its low zeros. -/
theorem wrvLoadsRegister : Obligations.WrvLoadsRegister := by
  intro s i n hv hsz hb hn he
  have hlen : wordLen n ≤ s.cfg.maxw := wordLen_le_iff.2 hn
  have hzeros : List.replicate s.cfg.maxw (0 : Word) =
      [] ++ (List.replicate (wordLen n) 0 ++ List.replicate (s.cfg.maxw - wordLen n) 0) := by
    rw [List.nil_append, List.replicate_append_replicate, Nat.add_sub_cancel' hlen]
  have hrun := run_wrWindow (s := State.clearReg { s with events := wrWindow s.cfg 0 (mag n), reply := none, sel := i } i)
    (pre := []) (ws := mag n) hv hb rfl ((State.words_setWords_self _ _ _).trans hzeros) (by simp) (by simp [hlen]) rfl
  have hvalue : val (mag n ++ List.replicate (s.cfg.maxw - wordLen n) 0) = n := by
    rw [val_append, val_mag, val_replicate_zero, Nat.mul_zero, Nat.add_zero]
  have hlength : (wrv s.cfg i n).length = (mag n).length + 2 := by simp [wrv]
  rw [hlength, run_select_clear _ hv hb he]
  refine ⟨_, hrun, ?_, rfl, fun r hr => ?_, rfl, rfl⟩
  · exact (congrArg val (State.words_setWords_self _ _ _)).trans hvalue
  · exact (State.words_setWords_ne _ _ hr.symm).trans (State.words_setWords_ne _ _ hr.symm)

/-- Settles O44: the product is written first; the modulus, in another register, is then still what it was. -/
theorem modmulExpansionRuns : Obligations.ModmulExpansionRuns := by
  intro s vd va vb vm hv hsz hb hp hwf hm hfit he
  have hne : vm ≠ vd := (bne_iff_ne.1 hwf).symm
  obtain ⟨t, ht, hmul⟩ := run_issued_wrote (i := .mul vd va vb) (es := issue s.cfg [.divr vd vd vm]) 2 hv hb nofun
    (finish_fits vd false hfit) hfit he
  have hcfg : t.cfg = s.cfg := hmul.frame.cfg
  have hwords : ∀ r, r ≠ vd → t.words r = s.words r := fun r hr =>
    hmul.frame.regs r fun h => hr (Option.some.inj h).symm
  have hvm : t.value vm = s.value vm := congrArg val (hwords vm hne)
  have hrem : s.value va * s.value vb % s.value vm < 2 ^ (32 * t.cfg.maxw) := by
    rw [hcfg]
    exact (Nat.mod_lt _ (Nat.pos_of_ne_zero hm)).trans (hsz.value_lt vm)
  have hresult : resultOf (.divr vd vd vm) t.cfg.maxw (t.capture (.divr vd vd vm)) =
      .wrote vd (s.value va * s.value vb % s.value vm) false := by
    have ha : (t.capture (.divr vd vd vm)).a = s.value va * s.value vb := hmul.value
    have hb' : (t.capture (.divr vd vd vm)).b = s.value vm := hvm
    rw [resultOf, ha, hb', if_neg hm, finish_fits vd false hrem]
  obtain ⟨u, hu, hdivr⟩ := run_issued_wrote (i := .divr vd vd vm) (es := []) 0 (hcfg ▸ hv) hmul.completed.busy nofun
    hresult hrem (by rw [hmul.frame.events, hcfg]; rfl)
  exact ⟨u, ht.trans hu, hdivr.value, hdivr.completed.ecode, hdivr.completed.busy,
    fun r hr => (hdivr.frame.regs r fun h => hr (Option.some.inj h).symm).trans (hwords r hr)⟩

end Sys2Proof
end

section
/-! Proofs for 40_arith_kernels.md: the commands of R90 to R100, each by its result and the completion with it. -/

namespace Sys2Proof.Machine

/-! ### A completion from the command's result (R40) -/

/-- R24, R28, R29: a command whose result is a value that fits completes by writing it. -/
theorem exec_wrote (i : Instr) {s : State} {rd : RegIdx} {x : Nat} {cy : Bool} (hn : i ≠ .nop)
    (hr : resultOf i s.cfg.maxw (s.operands i) = .wrote rd x cy) (hx : x < 2 ^ (32 * s.cfg.maxw)) :
    ∃ t, exec i s = .next t ∧ Wrote rd x (zeroFlag x) cy s t :=
  ⟨_, exec_eq_complete s hn, hr ▸ complete_wrote s rd cy hx⟩

/-- R135: a command whose result is an error completes with its code. -/
theorem exec_failed (i : Instr) {s : State} {e : CmdError} (hn : i ≠ .nop)
    (hr : resultOf i s.cfg.maxw (s.operands i) = .failed e) : ∃ t, exec i s = .next t ∧ Failed e.code s t :=
  ⟨_, exec_eq_complete s hn, hr ▸ complete_failed s e⟩

/-- R94: the result of SUB when the minuend is no smaller and fits. -/
theorem resultOf_sub_of_le {maxw : Nat} {o : Snapshot} (rd ra rb : RegIdx) (hle : o.b ≤ o.a)
    (hx : o.a < 2 ^ (32 * maxw)) : resultOf (.sub rd ra rb) maxw o = .wrote rd (o.a - o.b) false := by
  rw [resultOf, if_neg hle.not_gt, finish_fits rd false ((Nat.sub_le _ _).trans_lt hx)]

/-! ### The comparison code (R98) -/

@[simp] theorem cmpCode_self (a : Nat) : cmpCode a a = 0b00 := if_pos rfl

theorem cmpCode_of_gt {a b : Nat} (h : b < a) : cmpCode a b = 0b01 := by
  rw [cmpCode, if_neg h.ne', if_pos h]

theorem cmpCode_of_lt {a b : Nat} (h : a < b) : cmpCode a b = 0b10 := by
  rw [cmpCode, if_neg h.ne, if_neg h.not_gt]

/-! ### Taking back a sum (R100) -/

/-- R94, R100: SUB of a register from the one that holds its sum with `x` writes `x`. -/
theorem exec_sub_of_sum {s : State} {rd rb : RegIdx} {x : Nat} (hp : s.pend = none) (hs : s.Sized)
    (h : s.value rd = x + s.value rb) :
    ∃ t, exec (.sub rd rd rb) s = .next t ∧ t.status.ecode = 0 ∧ t.value rd = x := by
  have ho : s.operands (.sub rd rd rb) = s.capture (.sub rd rd rb) := by rw [State.operands, hp]
  have hle : s.value rb ≤ s.value rd := h ▸ Nat.le_add_left _ _
  have hr := resultOf_sub_of_le (o := s.capture (.sub rd rd rb)) rd rd rb hle (hs.value_lt rd)
  obtain ⟨t, ht, hw⟩ := exec_wrote (.sub rd rd rb) nofun (by rw [ho]; exact hr) ((Nat.sub_le _ _).trans_lt (hs.value_lt rd))
  exact ⟨t, ht, hw.completed.ecode, hw.value.trans (Nat.sub_eq_of_eq_add h)⟩

end Sys2Proof.Machine

namespace Sys2Proof

open Machine

/-- Settles O9: the word 0 is accepted as NOP while idle, and dropped as any CMD write while BUSY. -/
theorem nopCompletesAtAcceptance : Obligations.NopCompletesAtAcceptance := by
  refine ⟨by decide, fun _ => rfl, fun s es hv hb hp he => ?_, fun s es hv hb he => ?_⟩
  · have hstep := (step_cmdWrite_idle hv hb he).trans (accept_nop _ (by decide))
    exact ⟨_, hstep, rfl, hp, fun _ _ => rfl, rfl, rfl, rfl, rfl, rfl, rfl, rfl, rfl⟩
  · exact (step_wr_port .cmd hv (by decide) (by decide) rfl he).trans (writePort_cmd_busy hb)

/-- Settles O14, by the two ends of the result check on the sum. -/
theorem addCompletes : Obligations.AddCompletes := fun _ rd ra rb =>
  ⟨(Laws.Row.add rd ra rb).2, fun h => exec_wrote (.add rd ra rb) nofun (finish_fits rd _ h) h,
    fun h => exec_failed (.add rd ra rb) nofun (finish_overflows rd _ h)⟩

/-- Settles O15: the difference fits because the minuend does. -/
theorem subCompletes : Obligations.SubCompletes := by
  intro s rd ra rb o
  refine ⟨(Laws.Row.sub rd ra rb).2, fun hle ha => ?_, fun hlt => exec_failed (.sub rd ra rb) nofun (if_pos hlt)⟩
  have hzero : decide (o.a = o.b) = zeroFlag (o.a - o.b) := decide_eq_decide.2 (by omega)
  rw [hzero]
  exact exec_wrote (.sub rd ra rb) nofun (resultOf_sub_of_le rd ra rb hle ha) ((Nat.sub_le _ _).trans_lt ha)

/-- Settles O16, by the two ends of the result check on the product. -/
theorem mulCompletes : Obligations.MulCompletes := by
  intro s rd ra rb o
  refine ⟨(Laws.Row.mul rd ra rb).2, fun h => ?_, fun h => exec_failed (.mul rd ra rb) nofun (finish_overflows rd false h)⟩
  have hzero : decide (o.a = 0 ∨ o.b = 0) = zeroFlag (o.a * o.b) := decide_eq_decide.2 Nat.mul_eq_zero.symm
  rw [hzero]
  exact exec_wrote (.mul rd ra rb) nofun (finish_fits rd false h) h

/-- Settles O17: the completion is the one that writes the comparison code alone. -/
theorem cmpCompletes : Obligations.CmpCompletes := by
  intro s ra rb o
  refine ⟨(Laws.Row.cmp ra rb).2, s.complete (.compared (cmpCode o.a o.b)), rfl, fun h => ?_, cmpCode_of_gt, cmpCode_of_lt,
    rfl, rfl, ⟨rfl, rfl, rfl, rfl, rfl⟩, fun _ _ => rfl, rfl, rfl, rfl, rfl, rfl, rfl, rfl, rfl⟩
  exact (congrArg (cmpCode o.a) h.symm).trans (cmpCode_self o.a)

/-- Settles O22: after ADD the third register holds the sum, the operands are as before, and SUB takes either one back. -/
theorem addThenSubRestores : Obligations.AddThenSubRestores := by
  intro s t rd ra rb hp hra hrb hs hadd he
  have hc := completion_of_exec hadd
  obtain ⟨x, c, hr, hw⟩ := hc.wrote_of_ecode rfl he
  obtain ⟨rfl, _⟩ := resultOf_add_wrote hr
  have hsum : t.value rd = s.value ra + s.value rb := by rw [hw.value, State.operands, hp]; rfl
  have kept {r} (hne : rd ≠ r) : t.value r = s.value r :=
    congrArg val (hw.frame.regs r fun h => hne (Option.some.inj h))
  exact ⟨exec_sub_of_sum hw.completed.pend (hc.sized hs) (by rw [hsum, kept hrb]),
    exec_sub_of_sum hw.completed.pend (hc.sized hs) (by rw [hsum, kept hra, Nat.add_comm])⟩

end Sys2Proof
end

section
/-! Proofs for 40_arith_kernels.md: the word-level datapaths of R93, R95, R97 and R99 compute the values of the commands. -/

namespace Sys2Proof.Machine

/-! ### Normalized word lists (R13) -/

theorem wordLen_mono : Monotone wordLen := fun _ _ h => wordLen_le_iff.2 (h.trans_lt (wordLen_le_iff.1 le_rfl))

/-- Stripping changes nothing in a normalized word list. -/
@[simp] theorem strip_mag (v : Nat) : strip (mag v) = mag v := by rw [strip_eq_mag, val_mag]

/-- A list has no zero word at the top exactly when its tail has none and, where the tail is empty, its one word is not 0. -/
theorem strip_cons_eq_self_iff {w : Word} {ws : List Word} :
    strip (w :: ws) = w :: ws ↔ strip ws = ws ∧ (ws = [] → w ≠ 0) := by
  simp only [strip]
  cases strip ws with
  | nil =>
    show (if w = 0 then [] else [w]) = w :: ws ↔ _
    split_ifs <;> cases ws <;> simp_all
  | cons z zs => cases ws <;> simp

/-! ### The adder (R93) -/

/-- R93: one word of the carry chain; beyond the end of the shorter operand a zero is added. -/
theorem addCarry_cons (x : Word) (xs y : List Word) (c : Nat) :
    addCarry (x :: xs) y c =
      BitVec.ofNat 32 ((x.toNat + (y.headD 0).toNat + c) % radix) ::
        addCarry xs y.tail ((x.toNat + (y.headD 0).toNat + c) >>> 32) := by
  cases y <;> rfl

/-- R93: the carry chain ends without a word only after the last word and with no carry left. -/
theorem addCarry_eq_nil_iff {x y : List Word} {c : Nat} : addCarry x y c = [] ↔ x = [] ∧ c ≠ 1 := by
  cases x with
  | nil => simp [addCarry]
  | cons w ws => simp [addCarry_cons]

/-- R93: the sum of a normalized longer operand needs no stripping: its top word is a carry of 1, or is no smaller than the
operand's. -/
theorem strip_addCarry {x : List Word} (hx : strip x = x) (y : List Word) {c : Nat} (hc : c ≤ 1) :
    strip (addCarry x y c) = addCarry x y c := by
  induction x generalizing y c with
  | nil => simp only [addCarry]; split <;> rfl
  | cons w ws ih =>
    obtain ⟨hws, htop⟩ := strip_cons_eq_self_iff.1 hx
    have hw := toNat_lt w
    have hy := toNat_lt (y.headD 0)
    rw [addCarry_cons, strip_cons_eq_self_iff, addCarry_eq_nil_iff, shiftRight_word]
    refine ⟨ih hws _ (by omega), fun ⟨hnil, hcarry⟩ hzero => htop hnil ?_⟩
    rw [radix_eq] at hzero
    bv_omega

/-- R93: the carry chain over the longer operand gives the normalized words of the sum. -/
theorem addCarry_mag {a b : Nat} (h : wordLen b ≤ wordLen a) : addCarry (mag a) (mag b) 0 = mag (a + b) := by
  rw [← strip_addCarry (strip_mag a) (mag b) (Nat.zero_le 1), strip_eq_mag, val_addCarry _ _ _ (by simpa using h) (by omega),
    val_mag, val_mag, Nat.add_zero]

/-! ### The comparison (R99) -/

@[simp] theorem cmpCode_add_right (a b k : Nat) : cmpCode (a + k) (b + k) = cmpCode a b := by
  simp [cmpCode]

/-- A greater word above lower words decides, whatever those are. -/
theorem add_mul_lt_add_mul {M p q v w : Nat} (hp : p < M) (h : v < w) : p + M * v < q + M * w := by
  calc p + M * v < M * (v + 1) := by rw [Nat.mul_add]; omega
    _ ≤ M * w := Nat.mul_le_mul_left _ h
    _ ≤ q + M * w := Nat.le_add_left _ _

/-- R99: the first word from the top that differs decides the comparison of two lists of one length. -/
theorem compareDown_eq_cmpCode {x y : List Word} (hl : x.length = y.length) :
    compareDown x y = cmpCode (val x.reverse) (val y.reverse) := by
  induction x generalizing y with
  | nil => cases y with
    | nil => rfl
    | cons => cases hl
  | cons w ws ih =>
    obtain ⟨z, zs, rfl⟩ := List.exists_cons_of_length_eq_add_one hl.symm
    have hlen : ws.length = zs.length := Nat.succ.inj hl
    have hws := val_lt ws.reverse
    have hzs := val_lt zs.reverse
    rw [List.length_reverse] at hws hzs
    simp only [compareDown, List.reverse_cons, val_append, List.length_reverse, val_cons, val_nil, Nat.mul_zero, Nat.add_zero]
    rw [hlen] at hws ⊢
    split_ifs with heq hgt
    · rw [heq, cmpCode_add_right, ih hlen]
    · exact (cmpCode_of_gt (add_mul_lt_add_mul hzs hgt)).symm
    · have hlt : w.toNat < z.toNat := lt_of_le_of_ne (not_lt.1 hgt) fun h => heq (BitVec.eq_of_toNat_eq h)
      exact (cmpCode_of_lt (add_mul_lt_add_mul hws hlt)).symm

end Sys2Proof.Machine

namespace Sys2Proof

open Machine

/-- Settles O53: the longer operand goes first, and the sum is the same either way. -/
theorem adderDatapathComputesSum : Obligations.AdderDatapathComputesSum := by
  intro a b
  rw [adder]
  split
  · next h => rw [addCarry_mag h.le, Nat.add_comm]
  · next h => exact addCarry_mag (not_lt.1 h)

/-- Settles O54: a final borrow would leave a difference of more words than the minuend has. -/
theorem subtractorDatapathComputesDifference : Obligations.SubtractorDatapathComputesDifference := by
  intro a b hle
  obtain ⟨k, _, hk⟩ := val_subBorrow (mag a) (mag b) 0 (by simpa using wordLen_mono hle) (by omega)
  have hlt := val_lt (subBorrow (mag a) (mag b) 0)
  rw [length_subBorrow] at hlt
  rw [Nat.cast_zero, val_mag, val_mag] at hk
  rcases Nat.eq_zero_or_pos k with rfl | hpos
  · rw [Nat.zero_mul] at hk
    rw [subtractor, strip_eq_mag]
    exact congrArg mag (by omega)
  · have := Nat.le_mul_of_pos_left (2 ^ (32 * (mag a).length)) hpos
    omega

/-- Settles O55: the rows add the product into zeros, and stripping normalizes it. -/
theorem multiplierDatapathComputesProduct : Obligations.MultiplierDatapathComputesProduct := by
  intro a b
  rw [multiplier, strip_eq_mag,
    val_mulRows _ _ _ (by simp) (fun k _ => List.getElem?_getD_replicate_default_eq _ _ k),
    val_mag, val_mag, val_replicate_zero, Nat.add_zero]

/-- Settles O56: a longer normalized list has the greater value, and lists of one length are compared from the top. -/
theorem comparatorDatapathAgrees : Obligations.ComparatorDatapathAgrees := by
  intro a b
  show comparator a b = cmpCode a b
  rw [comparator]
  split_ifs with hgt hlt
  · exact (cmpCode_of_gt (wordLen_mono.reflect_lt hgt)).symm
  · exact (cmpCode_of_lt (wordLen_mono.reflect_lt hlt)).symm
  · rw [compareDown_eq_cmpCode (by simp; omega), List.reverse_reverse, List.reverse_reverse, val_mag, val_mag]

end Sys2Proof
end

section
/-! Proofs for 41_division.md: the commands DIVQ and DIVR (R114, R115) and the law of their values (R116). -/

namespace Sys2Proof.Machine

/-! ### The results of the two commands (R114, R115) -/

/-- R114: the quotient fits because the dividend does. -/
theorem resultOf_divq_of_ne_zero {maxw : Nat} {o : Snapshot} (rd ra rb : RegIdx) (hb : o.b ≠ 0)
    (ha : o.a < 2 ^ (32 * maxw)) : resultOf (.divq rd ra rb) maxw o = .wrote rd (o.a / o.b) false := by
  rw [resultOf, if_neg hb, finish_fits rd false ((Nat.div_le_self _ _).trans_lt ha)]

/-- R115: the remainder fits because the dividend does. -/
theorem resultOf_divr_of_ne_zero {maxw : Nat} {o : Snapshot} (rd ra rb : RegIdx) (hb : o.b ≠ 0)
    (ha : o.a < 2 ^ (32 * maxw)) : resultOf (.divr rd ra rb) maxw o = .wrote rd (o.a % o.b) false := by
  rw [resultOf, if_neg hb, finish_fits rd false ((Nat.mod_le _ _).trans_lt ha)]

/-! ### The law (R116) -/

/-- R116: naturals with `q*b + r = a` and `r < b` are the quotient and the remainder. -/
theorem eq_div_and_eq_mod {a b q r : Nat} (h : q * b + r = a) (hr : r < b) : q = a / b ∧ r = a % b := by
  obtain ⟨hq, hr⟩ := (Nat.div_mod_unique (Nat.zero_lt_of_lt hr)).2 ⟨by rw [Nat.mul_comm, Nat.add_comm, h], hr⟩
  exact ⟨hq.symm, hr.symm⟩

/-- With no command pending the operands are the registers' values, which fit in a sized state (R22). -/
theorem State.Sized.operand_lt {s : State} (h : s.Sized) (hp : s.pend = none) (i : Instr) :
    (s.operands i).a < 2 ^ (32 * s.cfg.maxw) := by
  rw [State.operands, hp]
  exact h.value_lt _

end Sys2Proof.Machine

namespace Sys2Proof

open Machine

/-- Settles O18: the quotient is 0 exactly when the dividend is below the divisor. -/
theorem divqCompletes : Obligations.DivqCompletes := by
  intro s rd ra rb o
  refine ⟨(Laws.Row.divq rd ra rb).2, fun hb ha => ?_, fun hb => exec_failed (.divq rd ra rb) nofun (if_pos hb)⟩
  have hzero : decide (o.a < o.b) = zeroFlag (o.a / o.b) := decide_eq_decide.2 (Nat.div_eq_zero_iff_lt (by omega)).symm
  rw [hzero]
  exact exec_wrote (.divq rd ra rb) nofun (resultOf_divq_of_ne_zero rd ra rb hb ha) ((Nat.div_le_self _ _).trans_lt ha)

/-- Settles O19: the remainder is 0 exactly when the divisor divides the dividend. -/
theorem divrCompletes : Obligations.DivrCompletes := by
  intro s rd ra rb o
  refine ⟨(Laws.Row.divr rd ra rb).2, fun hb ha => ?_, fun hb => exec_failed (.divr rd ra rb) nofun (if_pos hb)⟩
  have hzero : decide (o.b ∣ o.a) = zeroFlag (o.a % o.b) := decide_eq_decide.2 Nat.dvd_iff_mod_eq_zero
  rw [hzero]
  exact exec_wrote (.divr rd ra rb) nofun (resultOf_divr_of_ne_zero rd ra rb hb ha) ((Nat.mod_le _ _).trans_lt ha)

/-- Settles O21: both commands have the same operands, and quotient and remainder are unique. -/
theorem divisionLaw : Obligations.DivisionLaw := by
  intro s rd ra rb o hp hs hb
  have ha := hs.operand_lt hp (.divq rd ra rb)
  obtain ⟨t, ht, hq⟩ := (divqCompletes s rd ra rb).2.1 hb ha
  obtain ⟨u, hu, hr⟩ := (divrCompletes s rd ra rb).2.1 hb ha
  have hqv : t.value rd = o.a / o.b := hq.value
  have hrv : u.value rd = o.a % o.b := hr.value
  refine ⟨t, u, ht, hu, ?_⟩
  rw [hqv, hrv]
  exact ⟨Nat.div_add_mod' _ _, Nat.mod_lt _ (Nat.pos_of_ne_zero hb), fun _ _ => eq_div_and_eq_mod⟩

end Sys2Proof
end

section
/-! Proofs for 41_division.md: the division engine (R110 to R113, R117), whose two paths give the values of DIVQ and DIVR. -/

namespace Sys2Proof.Machine

/-! ### Word lists cut in two -/

/-- The low `k` words of a list hold its value modulo `2^(32·k)`. -/
theorem val_take {l : List Word} {k : Nat} (hk : k ≤ l.length) : val (l.take k) = val l % 2 ^ (32 * k) := by
  have hlt := val_lt (l.take k)
  rw [List.length_take_of_le hk] at hlt
  rw [val_take_drop l k hk, Nat.add_mul_mod_self_left, Nat.mod_eq_of_lt hlt]

/-- The words above the low `k` hold the value divided by `2^(32·k)`. -/
theorem val_drop {l : List Word} {k : Nat} (hk : k ≤ l.length) : val (l.drop k) = val l / 2 ^ (32 * k) := by
  have hlt := val_lt (l.take k)
  rw [List.length_take_of_le hk] at hlt
  rw [val_take_drop l k hk, Nat.add_mul_div_left _ _ (Nat.two_pow_pos _), Nat.div_eq_of_lt hlt, Nat.zero_add]

/-! ### The loop of Algorithm D (R112) -/

/-- R112: one quotient position takes its digit times the divisor off the window and leaves less than the divisor. -/
theorem knuthStep_euclid {vn w : List Word} (hn : 2 ≤ vn.length) (hw : w.length = vn.length + 1)
    (htop : 2147483648 ≤ (vn.getD (vn.length - 1) 0).toNat) (hlt : val w < val vn * 4294967296) :
    (knuthStep vn w).1.toNat * val vn + val (knuthStep vn w).2 = val w ∧ val (knuthStep vn w).2 < val vn ∧
      (knuthStep vn w).2.length = vn.length + 1 := by
  obtain ⟨hdigit, hlen, hrem⟩ := knuthStep_spec vn w hn hw htop hlt
  rw [hdigit, hrem]
  exact ⟨Nat.div_add_mod' _ _, Nat.mod_lt _ (Nat.pos_of_lt_mul_right hlt), hlen⟩

/-- A window below the divisor loses nothing when its top word is not used again (R112). -/
theorem val_take_of_lt {vn w : List Word} (hw : w.length = vn.length + 1) (hlt : val w < val vn) :
    val (w.take vn.length) = val w := by
  rw [val_take (by omega), Nat.mod_eq_of_lt (hlt.trans (val_lt vn))]

/-- R112: the loop divides exactly.  The invariant is the dividend still to be divided, the words `below` under the window
`w`, plus the digits already in `q` times the divisor; the bound on the window is the one each position needs. -/
theorem knuthLoop_spec {vn : List Word} (hn : 2 ≤ vn.length) (htop : 2147483648 ≤ (vn.getD (vn.length - 1) 0).toNat)
    (below w q : List Word) (hw : w.length = vn.length + 1) (hlt : val w < val vn * 4294967296) :
    val (knuthLoop vn below w q).1 * val vn + val (knuthLoop vn below w q).2 =
        val (below.reverse ++ w) + 2 ^ (32 * (below.length + 1)) * (val q * val vn) ∧
      val (knuthLoop vn below w q).2 < val vn ∧ (knuthLoop vn below w q).2.length = vn.length + 1 := by
  induction below generalizing w q with
  | nil =>
    obtain ⟨hdiv, hmod, hlen⟩ := knuthStep_euclid hn hw htop hlt
    refine ⟨?_, hmod, hlen⟩
    simp only [knuthLoop, val_cons, List.reverse_nil, List.nil_append, List.length_nil, ← hdiv]
    ring
  | cons u below ih =>
    obtain ⟨hdiv, hmod, hlen⟩ := knuthStep_euclid hn hw htop hlt
    have hu := toNat_lt u
    have hnext : val (u :: (knuthStep vn w).2.take vn.length) = u.toNat + 4294967296 * val (knuthStep vn w).2 := by
      rw [val_cons, val_take_of_lt hlen hmod, radix_eq]
    obtain ⟨heq, hrest⟩ := ih (u :: (knuthStep vn w).2.take vn.length) ((knuthStep vn w).1 :: q)
      (by simp [hlen]) (by rw [hnext]; omega)
    refine ⟨?_, hrest⟩
    simp only [knuthLoop]
    rw [heq, val_append, hnext, List.reverse_cons, List.append_assoc, val_append, List.singleton_append, val_cons, val_cons,
      List.length_cons, pow_words (below.length + 1), pow_words, List.length_reverse, ← hdiv]
    ring

/-! ### The normalizing shift (R112) -/

/-- R112: the shift `s` that sets the top bit of the divisor's leading word. -/
def normShift (b : Nat) : Nat := 32 * wordLen b - bitLen b

theorem bitLen_add_normShift (b : Nat) : bitLen b + normShift b = 32 * wordLen b := by
  simp only [normShift, wordLen]
  omega

theorem normShift_lt (b : Nat) : normShift b < 32 := by
  simp only [normShift, wordLen]
  omega

/-- R112: `vn`, the words of the shifted divisor. -/
def shiftedDivisor (b : Nat) : List Word := wordsOf (wordLen b) (b * 2 ^ normShift b)

/-- R112: `un`, the words of the shifted dividend, one more than the dividend has. -/
def shiftedDividend (a b : Nat) : List Word := wordsOf (wordLen a + 1) (a * 2 ^ normShift b)

@[simp] theorem length_shiftedDivisor (b : Nat) : (shiftedDivisor b).length = wordLen b := length_wordsOf _ _

@[simp] theorem length_shiftedDividend (a b : Nat) : (shiftedDividend a b).length = wordLen a + 1 := length_wordsOf _ _

/-- R112: a left shift up to the leading bit moves nothing out of the divisor's words. -/
theorem shifted_divisor_lt (b : Nat) : b * 2 ^ normShift b < 2 ^ (32 * wordLen b) := by
  rw [← bitLen_add_normShift, Nat.pow_add]
  exact Nat.mul_lt_mul_of_pos_right (lt_pow_bitLen b) (Nat.two_pow_pos _)

/-- R112: the shifted divisor is "exactly n words". -/
@[simp] theorem val_shiftedDivisor (b : Nat) : val (shiftedDivisor b) = b * 2 ^ normShift b :=
  val_wordsOf (shifted_divisor_lt b)

/-- R112: the one extra word holds what the shift moves out of the dividend's words. -/
@[simp] theorem val_shiftedDividend (a b : Nat) : val (shiftedDividend a b) = a * 2 ^ normShift b := by
  refine val_wordsOf ?_
  rw [Nat.mul_add, Nat.pow_add]
  exact Nat.mul_lt_mul_of_lt_of_le (wordLen_le_iff.1 le_rfl) (Nat.pow_le_pow_right (by decide) (normShift_lt b).le)
    (Nat.two_pow_pos _)

/-- R112: the top bit of the shifted divisor's `n + 1` words is set. -/
theorem le_shifted_divisor {b n : Nat} (hn : wordLen b = n + 1) :
    2147483648 * 2 ^ (32 * n) ≤ b * 2 ^ normShift b := by
  have hshift := bitLen_add_normShift b
  have hlt := normShift_lt b
  have hge : 2 ^ (bitLen b - 1) ≤ b := not_lt.1 fun h => absurd (bitLen_le_iff.2 h) (by omega)
  calc 2147483648 * 2 ^ (32 * n) = 2 ^ (31 + 32 * n) := by rw [Nat.pow_add]
    _ = 2 ^ (bitLen b - 1) * 2 ^ normShift b := by rw [← Nat.pow_add]; congr 1; omega
    _ ≤ b * 2 ^ normShift b := Nat.mul_le_mul_right _ hge

/-- R112: "vn[n-1] >= 2^31". -/
theorem le_top_shiftedDivisor {b : Nat} (hb : wordLen b ≠ 0) :
    2147483648 ≤ ((shiftedDivisor b).getD (wordLen b - 1) 0).toNat := by
  obtain ⟨n, hn⟩ := Nat.exists_eq_add_one_of_ne_zero hb
  have hlt := shifted_divisor_lt b
  rw [hn, pow_words] at hlt
  rw [shiftedDivisor, getD_wordsOf _ (by omega), wordAt, BitVec.toNat_ofNat, Nat.shiftRight_eq_div_pow, hn,
    Nat.add_sub_cancel, Nat.mod_eq_of_lt ((Nat.div_lt_iff_lt_mul (Nat.two_pow_pos _)).2 hlt),
    Nat.le_div_iff_mul_le (Nat.two_pow_pos _)]
  exact le_shifted_divisor hn

/-- R112: the first window is below the shifted divisor times the radix, the bound every position needs. -/
theorem first_window_lt {a b : Nat} (hb : wordLen b ≠ 0) (hab : wordLen b ≤ wordLen a) :
    val ((shiftedDividend a b).drop (wordLen a - wordLen b)) < val (shiftedDivisor b) * 4294967296 := by
  have hge : 2 ^ (32 * wordLen b) ≤ 4294967296 * b := by
    obtain ⟨n, hn⟩ := Nat.exists_eq_add_one_of_ne_zero hb
    rw [hn, pow_words]
    exact Nat.mul_le_mul_left _ (not_lt.1 fun h => absurd (wordLen_le_iff.2 h) (by omega))
  rw [val_drop (by rw [length_shiftedDividend]; omega), val_shiftedDividend, val_shiftedDivisor,
    Nat.div_lt_iff_lt_mul (Nat.two_pow_pos _)]
  calc a * 2 ^ normShift b < 2 ^ (32 * wordLen a) * 2 ^ normShift b :=
        Nat.mul_lt_mul_of_pos_right (wordLen_le_iff.1 le_rfl) (Nat.two_pow_pos _)
    _ = 2 ^ (32 * wordLen b) * 2 ^ normShift b * 2 ^ (32 * (wordLen a - wordLen b)) := by
      rw [← Nat.pow_add, ← Nat.pow_add, ← Nat.pow_add]; congr 1; omega
    _ ≤ 4294967296 * b * 2 ^ normShift b * 2 ^ (32 * (wordLen a - wordLen b)) :=
      Nat.mul_le_mul_right _ (Nat.mul_le_mul_right _ hge)
    _ = b * 2 ^ normShift b * 4294967296 * 2 ^ (32 * (wordLen a - wordLen b)) := by ring

/-! ### The two paths (R110 to R113) -/

theorem wordLen_eq_zero_iff {v : Nat} : wordLen v = 0 ↔ v = 0 := by
  rw [← Nat.le_zero, wordLen_le_iff, Nat.mul_zero, pow_zero, Nat.lt_one_iff]

/-- R111: a divisor of one word is nonzero and below the radix, so the single-word path divides by it exactly. -/
theorem divideSingle_eq (a : Nat) {b : Nat} (hb : wordLen b = 1) : divideSingle a b = (a / b, a % b) := by
  have hpos : 0 < b := Nat.pos_of_ne_zero (wordLen_eq_zero_iff.not.1 (by omega))
  obtain ⟨hdiv, hmod⟩ := horner_spec b hpos (wordLen_le_iff.1 hb.le) (mag a)
  rw [val_mag] at hdiv
  obtain ⟨hq, hr⟩ := eq_div_and_eq_mod hdiv hmod
  simp only [divideSingle, val_strip, ← hq, ← hr]

/-- R112: the loop's two results, on the shifted operands. -/
def knuthRun (a b : Nat) : List Word × List Word :=
  knuthLoop (shiftedDivisor b) ((shiftedDividend a b).take (wordLen a - wordLen b)).reverse
    ((shiftedDividend a b).drop (wordLen a - wordLen b)) []

theorem divideKnuth_of_lt {a b : Nat} (h : wordLen a < wordLen b) : divideKnuth a b = (0, a) := if_pos h

theorem divideKnuth_of_le {a b : Nat} (h : wordLen b ≤ wordLen a) :
    divideKnuth a b = (val (knuthRun a b).1, val ((knuthRun a b).2.take (wordLen b)) / 2 ^ normShift b) := by
  simp only [divideKnuth, if_neg h.not_gt, Nat.shiftLeft_eq, Nat.shiftRight_eq_div_pow]
  rfl

/-- R112: the loop divides the shifted dividend by the shifted divisor. -/
theorem knuthRun_spec {a b : Nat} (hb : 2 ≤ wordLen b) (hab : wordLen b ≤ wordLen a) :
    val (knuthRun a b).1 = a / b ∧ val ((knuthRun a b).2.take (wordLen b)) = a % b * 2 ^ normShift b := by
  obtain ⟨hdiv, hmod, hlen⟩ := knuthLoop_spec (by rwa [length_shiftedDivisor])
    (by rw [length_shiftedDivisor]; exact le_top_shiftedDivisor (by omega))
    ((shiftedDividend a b).take (wordLen a - wordLen b)).reverse ((shiftedDividend a b).drop (wordLen a - wordLen b)) []
    (by rw [List.length_drop, length_shiftedDividend, length_shiftedDivisor]; omega) (first_window_lt (by omega) hab)
  rw [← knuthRun] at hdiv hmod hlen
  have htake := val_take_of_lt hlen hmod
  rw [List.reverse_reverse, List.take_append_drop, val_nil, Nat.zero_mul, Nat.mul_zero, Nat.add_zero, val_shiftedDividend,
    val_shiftedDivisor] at hdiv
  rw [val_shiftedDivisor] at hmod
  rw [length_shiftedDivisor] at htake
  obtain ⟨hq, hr⟩ := eq_div_and_eq_mod hdiv hmod
  rw [Nat.mul_div_mul_right _ _ (Nat.two_pow_pos _)] at hq
  rw [Nat.mul_mod_mul_right] at hr
  exact ⟨hq, htake.trans hr⟩

/-- R112: Algorithm D is exact, by the early exit or by the loop and the shift back. -/
theorem divideKnuth_eq (a : Nat) {b : Nat} (hb : 2 ≤ wordLen b) : divideKnuth a b = (a / b, a % b) := by
  rcases Nat.lt_or_ge (wordLen a) (wordLen b) with hlt | hge
  · have hab : a < b := wordLen_mono.reflect_lt hlt
    rw [divideKnuth_of_lt hlt, Nat.div_eq_of_lt hab, Nat.mod_eq_of_lt hab]
  · obtain ⟨hq, hr⟩ := knuthRun_spec hb hge
    rw [divideKnuth_of_le hge, hq, hr, Nat.mul_div_cancel _ (Nat.two_pow_pos _)]

/-- R110, R116: whichever path the divisor's length selects, a nonzero divisor gives both values. -/
theorem divide_eq_some (a : Nat) {b : Nat} (hb : b ≠ 0) : divide a b = some (a / b, a % b) := by
  have hlen : wordLen b ≠ 0 := wordLen_eq_zero_iff.not.2 hb
  rw [divide, if_neg hlen]
  split
  · next h => rw [divideSingle_eq a h]
  · next h => rw [divideKnuth_eq a (by omega)]

/-- R110, R117: a zero divisor gives no value. -/
theorem divide_zero (a : Nat) : divide a 0 = none := if_pos (wordLen_eq_zero_iff.2 rfl)

end Sys2Proof.Machine

namespace Sys2Proof

open Machine

/-- Settles O57: a divisor of one word is nonzero and below the radix, and the Horner path keeps the division law. -/
theorem singleWordDivisionIsExact : Obligations.SingleWordDivisionIsExact := fun a _ => divideSingle_eq a

/-- Settles O58, by the invariant of the loop over the quotient positions (`knuthLoop_spec`), on the shifted operands. -/
theorem knuthDivisionIsExact : Obligations.KnuthDivisionIsExact := fun a _ => divideKnuth_eq a

/-- Settles O59: both paths give both values, and the mode selects one. -/
theorem divisionEngineIsExact : Obligations.DivisionEngineIsExact := by
  intro a b
  refine ⟨fun hb => ?_, fun mode hb => ?_⟩
  · simp only [divideEngine, divide_eq_some a hb, and_self]
  · simp only [divideEngine, hb, divide_zero]

end Sys2Proof
end

section
/-! Proofs for 42_modexp.md: the square-and-multiply datapath (R120, R121) and the command POWMOD (R122). -/

namespace Sys2Proof.Machine

/-! ### The number a list of exponent bits stands for (R120) -/

/-- R120: the value of a bit list in the order of the scan, least-significant bit first. -/
def bitsVal (bits : List Bool) : Nat := Nat.ofDigits 2 (bits.map Bool.toNat)

@[simp] theorem bitsVal_nil : bitsVal [] = 0 := rfl

@[simp] theorem bitsVal_cons (bit : Bool) (bits : List Bool) : bitsVal (bit :: bits) = bit.toNat + 2 * bitsVal bits :=
  Nat.ofDigits_cons

theorem bitsVal_append (l₁ l₂ : List Bool) : bitsVal (l₁ ++ l₂) = bitsVal l₁ + 2 ^ l₁.length * bitsVal l₂ := by
  simp [bitsVal, Nat.ofDigits_append]

/-- The low `n` bits of a word hold its value modulo `2^n`. -/
theorem bitsVal_range_getLsbD (w : Word) (n : Nat) : bitsVal ((List.range n).map w.getLsbD) = w.toNat % 2 ^ n := by
  induction n with
  | zero => simp [Nat.mod_one]
  | succ n ih =>
    rw [List.range_succ, List.map_append, bitsVal_append, ih, Nat.mod_pow_succ, ← Nat.toNat_testBit, BitVec.testBit_toNat]
    simp

@[simp] theorem length_wordBits (w : Word) : (wordBits w).length = 32 := by simp [wordBits]

@[simp] theorem bitsVal_wordBits (w : Word) : bitsVal (wordBits w) = w.toNat :=
  (bitsVal_range_getLsbD w 32).trans (Nat.mod_eq_of_lt w.isLt)

theorem bitsVal_flatMap_wordBits (ws : List Word) : bitsVal (ws.flatMap wordBits) = val ws := by
  induction ws with
  | nil => rfl
  | cons w ws ih => rw [List.flatMap_cons, bitsVal_append, bitsVal_wordBits, length_wordBits, ih, val_cons, radix]

/-- R120, R121: the bits of all 32 positions of every word of `mag(e)` stand for `e`. -/
@[simp] theorem bitsVal_expBits (e : Nat) : bitsVal (expBits e) = e := (bitsVal_flatMap_wordBits (mag e)).trans (val_mag e)

/-! ### The loop (R120) -/

/-- R120: the loop multiplies its result by the power of the base accumulator.  The result is reduced because it was at
the start, or because some bit of the exponent is set and the multiplication at that bit reduces it. -/
theorem squareMultiply_eq {m : Nat} (hm : 0 < m) {bits : List Bool} {r : Nat} (h : r < m ∨ bitsVal bits ≠ 0) (b : Nat) :
    squareMultiply m bits r b = r * b ^ bitsVal bits % m := by
  induction bits generalizing r b with
  | nil =>
    have hr : r < m := h.resolve_right (not_not_intro rfl)
    simp [squareMultiply, Nat.mod_eq_of_lt hr]
  | cons bit bits ih =>
    have hsquare (r' : Nat) : r' * (b * b % m) ^ bitsVal bits ≡ r' * b ^ (2 * bitsVal bits) [MOD m] := by
      rw [pow_mul, pow_two]
      exact ((Nat.mod_modEq (b * b) m).pow _).mul_left r'
    cases bit with
    | true =>
      calc squareMultiply m bits (r * b % m) (b * b % m)
        _ = r * b % m * (b * b % m) ^ bitsVal bits % m := ih (.inl (Nat.mod_lt _ hm)) _
        _ = r * b % m * b ^ (2 * bitsVal bits) % m := hsquare _
        _ = r * b * b ^ (2 * bitsVal bits) % m := (Nat.mod_modEq (r * b) m).mul_right _
        _ = r * b ^ bitsVal (true :: bits) % m := by rw [bitsVal_cons, Bool.toNat_true, pow_add, pow_one, mul_assoc]
    | false =>
      have h' : r < m ∨ bitsVal bits ≠ 0 := h.imp_right fun hne h0 => hne (by simp [h0])
      calc squareMultiply m bits r (b * b % m)
        _ = r * (b * b % m) ^ bitsVal bits % m := ih h' _
        _ = r * b ^ (2 * bitsVal bits) % m := hsquare r
        _ = r * b ^ bitsVal (false :: bits) % m := by rw [bitsVal_cons, Bool.toNat_false, Nat.zero_add]

/-- R120, R122: the datapath computes the power for a nonzero exponent and modulus. -/
theorem powMod_eq (a : Nat) {e m : Nat} (he : e ≠ 0) (hm : m ≠ 0) : powMod a e m = a ^ e % m := by
  have hbits : bitsVal (expBits e) ≠ 0 := (bitsVal_expBits e).symm ▸ he
  rw [powMod, squareMultiply_eq (Nat.pos_of_ne_zero hm) (.inr hbits), bitsVal_expBits, Nat.one_mul]

/-- R122: the zero exponent has no bits, so the loop leaves its initial result. -/
theorem powMod_zero_exponent (a m : Nat) : powMod a 0 m = 1 := rfl

/-! ### The results of the command (R122) -/

/-- R122: 1 fits in a register of one word or more. -/
theorem resultOf_powmod_zero_exponent {maxw : Nat} {o : Snapshot} (rd ra rb rc : RegIdx) (he : o.b = 0)
    (h1 : 1 < 2 ^ (32 * maxw)) : resultOf (.powmod rd ra rb rc) maxw o = .wrote rd 1 false := by
  rw [resultOf, if_pos he, finish_fits rd false h1]

/-- R122: a nonzero exponent with a zero modulus. -/
theorem resultOf_powmod_zero_modulus (maxw : Nat) {o : Snapshot} (rd ra rb rc : RegIdx) (he : o.b ≠ 0) (hm : o.c = 0) :
    resultOf (.powmod rd ra rb rc) maxw o = .failed .divZero := by
  rw [resultOf, if_neg he, if_pos hm]

/-- R122, R124: the power fits because the modulus does. -/
theorem resultOf_powmod {maxw : Nat} {o : Snapshot} (rd ra rb rc : RegIdx) (he : o.b ≠ 0) (hm : o.c ≠ 0)
    (hx : o.a ^ o.b % o.c < 2 ^ (32 * maxw)) :
    resultOf (.powmod rd ra rb rc) maxw o = .wrote rd (o.a ^ o.b % o.c) false := by
  rw [resultOf, if_neg he, if_neg hm, powMod_eq o.a he hm, finish_fits rd false hx]

end Sys2Proof.Machine

namespace Sys2Proof

open Machine

/-- Settles O20, by the three cases of the exponent and the modulus. -/
theorem powmodCompletes : Obligations.PowmodCompletes := by
  intro s rd ra rb rc o
  refine ⟨(Laws.Row.powmod rd ra rb rc).2, fun he hw => ?_, fun he hm => ?_, fun he hm hc => ?_⟩
  · have h1 : 1 < 2 ^ (32 * s.cfg.maxw) := Nat.one_lt_two_pow (by omega)
    exact exec_wrote (.powmod rd ra rb rc) nofun (resultOf_powmod_zero_exponent rd ra rb rc he h1) h1
  · exact exec_failed (.powmod rd ra rb rc) nofun (resultOf_powmod_zero_modulus _ rd ra rb rc he hm)
  · have hx : o.a ^ o.b % o.c < 2 ^ (32 * s.cfg.maxw) := (Nat.mod_lt _ (Nat.pos_of_ne_zero hm)).trans hc
    exact exec_wrote (.powmod rd ra rb rc) nofun (resultOf_powmod rd ra rb rc he hm hx) hx

/-- Settles O60, by the value of the exponent's bits (`bitsVal_expBits`) and the loop over them (`squareMultiply_eq`). -/
theorem powModDatapathComputesPower : Obligations.PowModDatapathComputesPower := fun a _ m =>
  ⟨powMod_eq a, powMod_zero_exponent a m⟩

end Sys2Proof
end

section
/-! Proofs for 60_exceptions.md: the causes of the error codes (R130 to R134, R138), the error completion (R135), and the
interrupt level (R140 to R142). -/

namespace Sys2Proof.Machine

/-! ### The code of a result (R130) -/

/-- The code with which a command of this result completes. -/
def CmdResult.code : CmdResult → BitVec 4
  | .wrote _ _ _ => 0
  | .compared _ => 0
  | .failed e => e.code

@[simp] theorem State.complete_ecode (s : State) (r : CmdResult) : (s.complete r).status.ecode = r.code := by
  cases r with
  | wrote rd x cy => rfl
  | compared code => rfl
  | failed e => rfl

/-- R91, R134: the result check gives code 4 to a value that does not fit. -/
theorem finish_code (maxw : Nat) (rd : RegIdx) (x : Nat) (cy : Bool) :
    (finish maxw rd x cy).code = if 2 ^ (32 * maxw) ≤ x then 4 else 0 := by
  rcases finish_cases maxw rd x cy with ⟨hx, hf⟩ | ⟨hx, hf⟩
  · rw [hf, if_neg hx.not_ge]; rfl
  · rw [hf, if_pos hx]; rfl

/-- R132 to R134: the code of each command by its cause, for operands that registers hold. -/
def causeCode (i : Instr) (maxw : Nat) (o : Snapshot) : BitVec 4 :=
  match i with
  | .nop => 0
  | .cmp _ _ => 0
  | .add _ _ _ => if 2 ^ (32 * maxw) ≤ o.a + o.b then 4 else 0
  | .mul _ _ _ => if 2 ^ (32 * maxw) ≤ o.a * o.b then 4 else 0
  | .sub _ _ _ => if o.a < o.b then 3 else 0
  | .divq _ _ _ => if o.b = 0 then 2 else 0
  | .divr _ _ _ => if o.b = 0 then 2 else 0
  | .powmod _ _ _ _ => if o.b ≠ 0 ∧ o.c = 0 then 2 else 0

/-- R138: with operands that fit, SUB, DIVQ, DIVR and POWMOD never overflow, so each has the one cause of its rule. -/
theorem resultOf_code (i : Instr) {maxw : Nat} {o : Snapshot} (h1 : 1 ≤ maxw) (ha : o.a < 2 ^ (32 * maxw))
    (hc : o.c < 2 ^ (32 * maxw)) : (resultOf i maxw o).code = causeCode i maxw o := by
  cases i with
  | nop | cmp => rfl
  | add rd ra rb | mul rd ra rb => exact finish_code _ _ _ _
  | sub rd ra rb =>
    by_cases hlt : o.a < o.b
    · rw [resultOf, causeCode, if_pos hlt, if_pos hlt]; rfl
    · rw [resultOf_sub_of_le rd ra rb (not_lt.1 hlt) ha, causeCode, if_neg hlt]; rfl
  | divq rd ra rb =>
    by_cases hb : o.b = 0
    · rw [resultOf, causeCode, if_pos hb, if_pos hb]; rfl
    · rw [resultOf_divq_of_ne_zero rd ra rb hb ha, causeCode, if_neg hb]; rfl
  | divr rd ra rb =>
    by_cases hb : o.b = 0
    · rw [resultOf, causeCode, if_pos hb, if_pos hb]; rfl
    · rw [resultOf_divr_of_ne_zero rd ra rb hb ha, causeCode, if_neg hb]; rfl
  | powmod rd ra rb rc =>
    by_cases he : o.b = 0
    · rw [resultOf_powmod_zero_exponent rd ra rb rc he (Nat.one_lt_two_pow (by omega)), causeCode, if_neg (·.1 he)]; rfl
    · by_cases hm : o.c = 0
      · rw [resultOf_powmod_zero_modulus maxw rd ra rb rc he hm, causeCode, if_pos ⟨he, hm⟩]; rfl
      · have hx : o.a ^ o.b % o.c < 2 ^ (32 * maxw) := (Nat.mod_lt _ (Nat.pos_of_ne_zero hm)).trans hc
        rw [resultOf_powmod rd ra rb rc he hm hx, causeCode, if_neg (hm ·.2)]; rfl

/-- R132 to R134: every command completes with the code of its cause. -/
theorem exec_causeCode (i : Instr) {s : State} (h1 : 1 ≤ s.cfg.maxw) (ha : (s.operands i).a < 2 ^ (32 * s.cfg.maxw))
    (hc : (s.operands i).c < 2 ^ (32 * s.cfg.maxw)) :
    ∃ t, exec i s = .next t ∧ t.status.ecode = causeCode i s.cfg.maxw (s.operands i) := by
  by_cases hn : i = .nop
  · subst hn; exact ⟨_, rfl, rfl⟩
  · exact ⟨_, exec_eq_complete s hn, (State.complete_ecode s _).trans (resultOf_code i h1 ha hc)⟩

/-! ### The cause of each code (R132, R133, R134) -/

/-- A command whose one error is `k`, by the cause `p`, has a nonzero code `n` exactly when `p` holds and `n` is `k`. -/
theorem ite_code_eq_iff {p : Prop} [Decidable p] {k n : BitVec 4} (hn : 0 ≠ n) :
    (if p then k else 0) = n ↔ p ∧ k = n :=
  ite_eq_iff.trans (or_iff_left fun h => hn h.2)

theorem causeCode_eq_two_iff {i : Instr} {maxw : Nat} {o : Snapshot} : causeCode i maxw o = 2 ↔
    ((∃ d a b, i = .divq d a b ∨ i = .divr d a b) ∧ o.b = 0) ∨
      ((∃ d a b c, i = .powmod d a b c) ∧ o.b ≠ 0 ∧ o.c = 0) := by
  cases i with
  | nop | cmp => simp [causeCode]
  | add | mul | sub | divq | divr | powmod => rw [causeCode, ite_code_eq_iff (by decide)]; simp

theorem causeCode_eq_three_iff {i : Instr} {maxw : Nat} {o : Snapshot} : causeCode i maxw o = 3 ↔
    (∃ d a b, i = .sub d a b) ∧ o.a < o.b := by
  cases i with
  | nop | cmp => simp [causeCode]
  | add | mul | sub | divq | divr | powmod => rw [causeCode, ite_code_eq_iff (by decide)]; simp

theorem causeCode_eq_four_iff {i : Instr} {maxw : Nat} {o : Snapshot} : causeCode i maxw o = 4 ↔
    ((∃ d a b, i = .add d a b) ∧ 2 ^ (32 * maxw) ≤ o.a + o.b) ∨
      ((∃ d a b, i = .mul d a b) ∧ 2 ^ (32 * maxw) ≤ o.a * o.b) := by
  cases i with
  | nop | cmp => simp [causeCode]
  | add | mul | sub | divq | divr | powmod => rw [causeCode, ite_code_eq_iff (by decide)]; simp

theorem causeCode_mem (i : Instr) (maxw : Nat) (o : Snapshot) :
    causeCode i maxw o = 0 ∨ causeCode i maxw o = 2 ∨ causeCode i maxw o = 3 ∨ causeCode i maxw o = 4 := by
  cases i with
  | nop | cmp => exact .inl rfl
  | add | mul | sub | divq | divr | powmod => rw [causeCode]; split <;> decide

/-! ### The error completion (R135) -/

/-- R135: of the ways to complete, only the error completion leaves a nonzero code. -/
theorem Completion.failed_of_ecode {i : Instr} {s t : State} (h : Completion i s t) (he : t.status.ecode ≠ 0) :
    Failed t.status.ecode s t := by
  cases h with
  | wrote r x c _ _ hw => exact absurd hw.completed.ecode he
  | failed e _ hf => rw [hf.completed.ecode]; exact hf
  | compared ra rb _ ht => subst ht; exact absurd rfl he
  | nop _ ht => subst ht; exact absurd rfl he

/-! ### The interrupt level (R140) -/

theorem State.irq_of_done {s : State} (h : s.status.done = true) : s.irq = s.ie := by
  rw [State.irq, h, Bool.and_true]

theorem State.irq_of_not_done {s : State} (h : s.status.done = false) : s.irq = false := by
  rw [State.irq, h, Bool.and_false]

theorem State.irq_of_disabled {s : State} (h : s.ie = false) : s.irq = false := by
  rw [State.irq, h, Bool.false_and]

/-- R142: the acknowledgement clears DONE. -/
theorem Status.clearWritten_done {x : Status} {w : Word} (hw : w.getLsbD 1 = true) : (x.clearWritten w).done = false := by
  rw [Status.clearWritten, hw, Bool.not_true, Bool.and_false]

/-- R150, R151: the step of a platform reset. -/
theorem step_reset {s : State} {es : List Event} (hv : s.cfg.valid = true) (he : s.events = .reset :: es) :
    step s = .next { State.resetWith s.cfg with events := es } := by
  rw [step, if_pos hv, stepEvent, he]
  rfl

end Sys2Proof.Machine

namespace Sys2Proof

open Machine

/-- Settles O8: the accepting step ends in the error completion with code 1. -/
theorem illegalWordCompletesAtAcceptance : Obligations.IllegalWordCompletesAtAcceptance := fun _ _ _ _ hv hb he hd =>
  ⟨_, (step_cmdWrite_idle hv hb he).trans (accept_illegal _ hd), rfl, rfl, rfl, rfl, rfl, rfl, rfl, rfl, rfl⟩

/-- Settles O24, by the four ways to complete. -/
theorem errorsArePrecise : Obligations.ErrorsArePrecise := fun _ _ _ h he => (completion_of_exec h).failed_of_ecode he

/-- Settles O25: the code of the completion is `causeCode`, whose values have one cause each. -/
theorem errorCodeCauses : Obligations.ErrorCodeCauses := by
  intro i s h1 ha _ hc
  obtain ⟨t, ht, he⟩ := exec_causeCode i h1 ha hc
  refine ⟨t, ht, ?_⟩
  rw [he]
  exact ⟨causeCode_eq_two_iff, causeCode_eq_three_iff, causeCode_eq_four_iff, causeCode_mem i _ _⟩

/-- Settles O32: every completion sets DONE and keeps IE, and each way to lower the level clears one of the two. -/
theorem interruptLevel : Obligations.InterruptLevel := by
  refine ⟨fun _ => rfl, fun s t i h => ?_, fun s w es hv he hw => ?_, fun s w es hv he hw => ?_,
    fun s w i es hv hb he hd hn => ?_, fun s es hv he => ?_⟩
  · have hc := completion_of_exec h
    exact (State.irq_of_done hc.done).trans hc.frame.ie
  · exact ⟨_, step_wr_port .status hv (by decide) (by decide) rfl he,
      State.irq_of_not_done (Status.clearWritten_done hw)⟩
  · exact ⟨_, step_wr_port .ctrl hv (by decide) (by decide) rfl he, State.irq_of_disabled hw⟩
  · exact ⟨_, (step_cmdWrite_idle hv hb he).trans (accept_engine _ hd hn), State.irq_of_not_done rfl⟩
  · exact ⟨_, step_reset hv he, rfl⟩

end Sys2Proof
end

section
/-! Proofs for 70_reset_and_hazards.md: the state after a reset (R150, R151), and what a host access does and shows while a
command runs (R161, R163). -/

namespace Sys2Proof.Machine

/-! ### The reset state (R150) -/

@[simp] theorem resetWith_value (c : Config) (r : RegIdx) : (State.resetWith c).value r = 0 := by
  rw [State.value, resetWith_words, val_replicate_zero]

/-! ### What a completion depends on (R163) -/

/-- R163: `t` has what the completion of the pending command takes from `s`: the parameters, the command with its snapshot,
the V registers, and the flags that a completion may leave as they are. -/
structure Undisturbed (s t : State) : Prop where
  cfg : t.cfg = s.cfg
  pend : t.pend = s.pend
  v : t.v = s.v
  z : t.status.z = s.status.z
  cy : t.status.cy = s.status.cy
  cmp : t.status.cmp = s.status.cmp

/-- The registers, Z, CY, CMP and code that a command has written are the same in `s` and `t`. -/
structure SameEffect (s t : State) : Prop where
  v : t.v = s.v
  z : t.status.z = s.status.z
  cy : t.status.cy = s.status.cy
  cmp : t.status.cmp = s.status.cmp
  ecode : t.status.ecode = s.status.ecode

namespace Undisturbed

variable {s t : State}

theorem operands_eq (h : Undisturbed s t) {p : Pending} (hp : s.pend = some p) (i : Instr) :
    t.operands i = s.operands i := by
  simp only [State.operands, h.pend, hp]

/-- R40: the same result completes alike in both states. -/
theorem complete_sameEffect (h : Undisturbed s t) (r : CmdResult) : SameEffect (s.complete r) (t.complete r) := by
  cases r with
  | wrote rd x cy =>
    refine ⟨?_, rfl, rfl, h.cmp, rfl⟩
    show t.v.set rd.val (wordsOf t.cfg.maxw x) = s.v.set rd.val (wordsOf s.cfg.maxw x)
    rw [h.v, h.cfg]
  | compared code => exact ⟨h.v, h.z, h.cy, rfl, rfl⟩
  | failed e => exact ⟨h.v, h.z, h.cy, h.cmp, rfl⟩

/-- R40, R163: while a command is pending, any command runs alike in both states. -/
theorem exec_sameEffect (h : Undisturbed s t) {p : Pending} (hp : s.pend = some p) (i : Instr) :
    ∃ u u', exec i s = .next u ∧ exec i t = .next u' ∧ SameEffect u u' := by
  by_cases hn : i = .nop
  · subst hn
    exact ⟨_, _, rfl, rfl, h.v, h.z, h.cy, h.cmp, rfl⟩
  · refine ⟨_, _, exec_eq_complete s hn, exec_eq_complete t hn, ?_⟩
    rw [h.operands_eq hp, h.cfg]
    exact h.complete_sameEffect _

end Undisturbed

/-- R39, R163: no host access that is answered while BUSY = 1 disturbs the running command, or changes CMDREG or BUSY; one
that is not safe is dropped. -/
theorem undisturbed_of_step_host {s t : State} {a : Access} {es : List Event} (hb : s.status.busy = true)
    (he : s.events = .host a :: es) (hs : step s = .next t) :
    Undisturbed s t ∧ t.cmdreg = s.cmdreg ∧ t.status.busy = true := by
  rcases step_effect_cases hs with ⟨hr, _⟩ | ⟨p, hev, _⟩ | ⟨x, rfl⟩ | ⟨off, w, _, _, hw⟩
  · simp [he] at hr
  · simp [he] at hev
  · exact ⟨⟨rfl, rfl, rfl, rfl, rfl, rfl⟩, rfl, hb⟩
  · obtain ⟨hv, hpend, hcmdreg, hbusy⟩ :=
      writePort_busy (s := { s with events := s.events.tail, reply := none }) hb hw
    obtain ⟨hz, hcy, hcmp⟩ := writePort_flags hw
    exact ⟨⟨step_keeps_cfg hs, hpend, hv, hz, hcy, hcmp⟩, hcmdreg, hbusy⟩

/-! ### Reads around the completion (R36, R40, R161) -/

/-- R36: the step of a read of WIN[k] returns word `k` of the selected register. -/
theorem step_rd_win {s : State} {k : Nat} {es : List Event} (hv : s.cfg.valid = true) (hk : k < s.cfg.maxw)
    (he : s.events = rd s.cfg (0x800 + 4 * k) :: es) :
    step s = .next { s with events := es, reply := some (s.word s.sel k) } :=
  step_rd_port (.win k) hv (win_offset_lt hv hk) (by omega) (portAt_win hk) he

/-- R40: the engine's turn between host accesses completes the pending command as `exec` does, whatever inputs come after it
and whatever the bus returned before it. -/
theorem step_engine_of_exec {s x : State} {p : Pending} (hv : s.cfg.valid = true) (hb : s.status.busy = true)
    (hp : s.pend = some p) (hx : exec p.instr s = .next x) (es : List Event) (y : Option Word) :
    step { s with events := .engine :: es, reply := y } = .next { x with events := es, reply := y } := by
  obtain ⟨x', hx', hinputs⟩ := exec_with_inputs p.instr s es y
  obtain rfl := Host.Outcome.next.inj (hx.symm.trans hx')
  exact (step_engine (s := { s with events := .engine :: es, reply := y }) hv (.inr rfl) hb hp).trans hinputs

end Sys2Proof.Machine

namespace Sys2Proof

open Machine

/-- Settles O45: the step leaves the reset state, whose registers all have value 0. -/
theorem resetSetsEveryField : Obligations.ResetSetsEveryField := by
  intro s es hv he
  have hlen : wordLen ((State.resetWith s.cfg).value 0) = 0 := by rw [resetWith_value]; rfl
  have hbitlen : bitLen ((State.resetWith s.cfg).value 0) = 0 := by rw [resetWith_value]; rfl
  exact ⟨_, step_reset hv he, fun r => ⟨resetWith_words s.cfg r, resetWith_value s.cfg r⟩,
    rfl, rfl, rfl, rfl, rfl, rfl, rfl, rfl, rfl, rfl, rfl, rfl, rfl, rfl, rfl, rfl,
    congrArg (BitVec.ofNat 32) hlen, congrArg (BitVec.ofNat 32) hbitlen⟩

/-- Settles O46: `resetWith_inv`, and the default configuration is valid. -/
theorem resetMeetsInvariant : Obligations.ResetMeetsInvariant := ⟨resetWith_inv (by decide), fun _ => resetWith_inv⟩

/-- Settles O50: the access is answered and leaves what the completion depends on.  That it is a safe one is not needed: the
model drops the others (R39). -/
theorem safeAccessesDoNotDisturb : Obligations.SafeAccessesDoNotDisturb := by
  intro s p op off es hv hb hp ho hal _ he
  obtain ⟨t, ht⟩ := (onlyAlignedWordAccesses s op off 4 es hv ho he).2 rfl hal
  obtain ⟨h, hcmdreg, hbusy⟩ := undisturbed_of_step_host hb he ht
  obtain ⟨u, u', hu, hu', hsame⟩ := h.exec_sameEffect hp p.instr
  exact ⟨t, ht, h.pend, h.v, hbusy, hcmdreg, u, u', hu, hu', hsame.v, hsame.z, hsame.cy, hsame.cmp, hsame.ecode⟩

/-- Settles O52, step by step: the first read changes only the inputs and the bus data, on which the completion does not
depend, and the completion keeps SEL. -/
theorem oldWordUntilCompletion : Obligations.OldWordUntilCompletion := by
  intro s p k hv hb hp _ _ hk he
  obtain ⟨x, hx, hc⟩ := exec_completion p.instr s
  have hframe := hc.frame
  have hread := step_rd_win hv hk he
  have hengine := step_engine_of_exec hv hb hp hx [rd s.cfg (0x800 + 4 * k)] (some (s.word s.sel k))
  have hreread := step_rd_win (es := [])
    (s := { x with events := [rd s.cfg (0x800 + 4 * k)], reply := some (s.word s.sel k) })
    (hframe.cfg ▸ hv) (hframe.cfg ▸ hk) (by simp only [hframe.cfg])
  have hrun := (run_core_succ 2 hread).trans ((run_core_succ 1 hengine).trans (run_core_succ 0 hreread))
  exact ⟨_, _, x, hread, rfl, hx, hrun, congrArg (fun r => some (x.word r k)) hframe.sel⟩

end Sys2Proof
end
